-- ==== Sys2Proof/Word.lean ====
section
/-!
DEFINITION. The storage widths of the block (spec 00_scope.md R7, R9). Every value is unsigned (R9).
-/
namespace Sys2Proof

/-- A memory cell, a general register, a timer or an NN literal: 8 bits (R7). -/
abbrev Byte := BitVec 8

/-- An instruction word, I, pc or a call-stack entry: 16 bits (R7). -/
abbrev Word := BitVec 16

/-- A register index (X, Y), a draw height (N) or an ignored nibble: 4 bits (R73). -/
abbrev Nibble := BitVec 4

/-- An NNN literal: 12 bits (R73). -/
abbrev Addr12 := BitVec 12

/-- One row of the framebuffer: 64 pixels, bit x is the pixel in column x (R7, R28). -/
abbrev PixelRow := BitVec 64

end Sys2Proof
end

