-- ==== Sys2Proof/Syntax.lean ====
section
/-!
DEFINITION. The 34 instructions of the opcode map (spec 30_encoding.md R75), one constructor a row, in the
order of the map. An operand is named as in R13: `x`, `y`, `n`, `nn`, `nnn`. A field that the instruction
ignores (R76) is kept as the argument `ign`, so that an instruction and its word determine each other; no
meaning reads it. DESIGN CHOICE (notes/assumptions/7.md).
-/
namespace Sys2Proof

inductive Instr where
  /-- `0?E0` clear-screen (R180). -/
  | clearScreen (ign : Nibble)
  /-- `0?EE` return (R101). -/
  | ret (ign : Nibble)
  /-- `1NNN` jump (R102). -/
  | jump (nnn : Addr12)
  /-- `2NNN` call (R104). -/
  | call (nnn : Addr12)
  /-- `3XNN` skip-eq-imm (R106). -/
  | skipEqImm (x : Nibble) (nn : Byte)
  /-- `4XNN` skip-neq-imm (R107). -/
  | skipNeqImm (x : Nibble) (nn : Byte)
  /-- `5XY?` skip-eq-reg (R108). -/
  | skipEqReg (x y ign : Nibble)
  /-- `6XNN` set-imm (R133). -/
  | setImm (x : Nibble) (nn : Byte)
  /-- `7XNN` add-imm (R134). -/
  | addImm (x : Nibble) (nn : Byte)
  /-- `8XY0` set-reg (R135). -/
  | setReg (x y : Nibble)
  /-- `8XY1` or (R136). -/
  | orReg (x y : Nibble)
  /-- `8XY2` and (R137). -/
  | andReg (x y : Nibble)
  /-- `8XY3` xor (R138). -/
  | xorReg (x y : Nibble)
  /-- `8XY4` add-reg (R139). -/
  | addReg (x y : Nibble)
  /-- `8XY5` sub-reg (R140). -/
  | subReg (x y : Nibble)
  /-- `8X?6` shift-right (R141). -/
  | shiftRight (x ign : Nibble)
  /-- `8XY7` subn (R142). -/
  | subn (x y : Nibble)
  /-- `8X?E` shift-left (R143). -/
  | shiftLeft (x ign : Nibble)
  /-- `9XY?` skip-neq-reg (R109). -/
  | skipNeqReg (x y ign : Nibble)
  /-- `ANNN` set-index (R160). -/
  | setIndex (nnn : Addr12)
  /-- `BNNN` jump-offset (R110). -/
  | jumpOffset (nnn : Addr12)
  /-- `CXNN` rand (R150). -/
  | rand (x : Nibble) (nn : Byte)
  /-- `DXYN` draw-sprite (R182). -/
  | drawSprite (x y n : Nibble)
  /-- `EX9E` skip-key-pressed (R200). -/
  | skipKeyPressed (x : Nibble)
  /-- `EXA1` skip-key-not-pressed (R201). -/
  | skipKeyNotPressed (x : Nibble)
  /-- `FX07` get-delay (R203). -/
  | getDelay (x : Nibble)
  /-- `FX0A` wait-key (R205). -/
  | waitKey (x : Nibble)
  /-- `FX15` set-delay (R207). -/
  | setDelay (x : Nibble)
  /-- `FX18` set-sound (R208). -/
  | setSound (x : Nibble)
  /-- `FX1E` add-index (R161). -/
  | addIndex (x : Nibble)
  /-- `FX29` font-addr (R162). -/
  | fontAddr (x : Nibble)
  /-- `FX33` store-bcd (R163). -/
  | storeBcd (x : Nibble)
  /-- `FX55` reg-dump (R165). -/
  | regDump (x : Nibble)
  /-- `FX65` reg-load (R166). -/
  | regLoad (x : Nibble)
  deriving DecidableEq, Repr

end Sys2Proof
end

