-- ==== Sys2Proof/Decode.lean ====
section
/-!
DEFINITION. Decode, dispatch and encode (spec 30_encoding.md R70 to R80).
`dispatch` is the two-level match of R75, written from the family and the sub-opcode; `opcodeMap` is the same
map as R75's table of masks and matches; `encode` is written from R80's "word" column. That the three agree
is stated in Certificates/Slice0/Obligations.lean.
-/
namespace Sys2Proof

/-! ### Fields (R8, R13, R73) -/

/-- The family `w[15:12]`. -/
def family (w : Word) : Nibble := w.extractLsb' 12 4

/-- `X = w[11:8]`. -/
def fieldX (w : Word) : Nibble := w.extractLsb' 8 4

/-- `Y = w[7:4]`. -/
def fieldY (w : Word) : Nibble := w.extractLsb' 4 4

/-- `N = w[3:0]`. -/
def fieldN (w : Word) : Nibble := w.extractLsb' 0 4

/-- `NN = w[7:0]`. -/
def fieldNN (w : Word) : Byte := w.extractLsb' 0 8

/-- `NNN = w[11:0]`. -/
def fieldNNN (w : Word) : Addr12 := w.extractLsb' 0 12

/-! ### Dispatch (R75) -/

/-- Why bytes are no instruction. -/
inductive DecodeError where
  /-- Fewer than the two bytes of an instruction (R71). A fetch from memory never meets this. -/
  | truncated
  /-- The word matches no row of the opcode map (R77). -/
  | unknownOpcode (w : Word)
  deriving DecidableEq, Repr

/-- Family 0x0: the second level is the low byte; bits 11–8 are not examined (R75, D28). -/
def dispatchFamily0 (w : Word) : Except DecodeError Instr :=
  match fieldNN w with
  | 0xE0#8 => .ok (.clearScreen (fieldX w))
  | 0xEE#8 => .ok (.ret (fieldX w))
  | _ => .error (.unknownOpcode w)

/-- Family 0x8: the second level is the low nibble (R75). -/
def dispatchFamily8 (w : Word) : Except DecodeError Instr :=
  match fieldN w with
  | 0x0#4 => .ok (.setReg (fieldX w) (fieldY w))
  | 0x1#4 => .ok (.orReg (fieldX w) (fieldY w))
  | 0x2#4 => .ok (.andReg (fieldX w) (fieldY w))
  | 0x3#4 => .ok (.xorReg (fieldX w) (fieldY w))
  | 0x4#4 => .ok (.addReg (fieldX w) (fieldY w))
  | 0x5#4 => .ok (.subReg (fieldX w) (fieldY w))
  | 0x6#4 => .ok (.shiftRight (fieldX w) (fieldY w))
  | 0x7#4 => .ok (.subn (fieldX w) (fieldY w))
  | 0xE#4 => .ok (.shiftLeft (fieldX w) (fieldY w))
  | _ => .error (.unknownOpcode w)

/-- Family 0xE: the second level is the low byte (R75). -/
def dispatchFamilyE (w : Word) : Except DecodeError Instr :=
  match fieldNN w with
  | 0x9E#8 => .ok (.skipKeyPressed (fieldX w))
  | 0xA1#8 => .ok (.skipKeyNotPressed (fieldX w))
  | _ => .error (.unknownOpcode w)

/-- Family 0xF: the second level is the low byte (R75). -/
def dispatchFamilyF (w : Word) : Except DecodeError Instr :=
  match fieldNN w with
  | 0x07#8 => .ok (.getDelay (fieldX w))
  | 0x0A#8 => .ok (.waitKey (fieldX w))
  | 0x15#8 => .ok (.setDelay (fieldX w))
  | 0x18#8 => .ok (.setSound (fieldX w))
  | 0x1E#8 => .ok (.addIndex (fieldX w))
  | 0x29#8 => .ok (.fontAddr (fieldX w))
  | 0x33#8 => .ok (.storeBcd (fieldX w))
  | 0x55#8 => .ok (.regDump (fieldX w))
  | 0x65#8 => .ok (.regLoad (fieldX w))
  | _ => .error (.unknownOpcode w)

/-- R75: "Dispatch is a two-level match. The first level is the family `w[15:12]`." -/
def dispatch (w : Word) : Except DecodeError Instr :=
  match family w with
  | 0x0#4 => dispatchFamily0 w
  | 0x1#4 => .ok (.jump (fieldNNN w))
  | 0x2#4 => .ok (.call (fieldNNN w))
  | 0x3#4 => .ok (.skipEqImm (fieldX w) (fieldNN w))
  | 0x4#4 => .ok (.skipNeqImm (fieldX w) (fieldNN w))
  | 0x5#4 => .ok (.skipEqReg (fieldX w) (fieldY w) (fieldN w))
  | 0x6#4 => .ok (.setImm (fieldX w) (fieldNN w))
  | 0x7#4 => .ok (.addImm (fieldX w) (fieldNN w))
  | 0x8#4 => dispatchFamily8 w
  | 0x9#4 => .ok (.skipNeqReg (fieldX w) (fieldY w) (fieldN w))
  | 0xA#4 => .ok (.setIndex (fieldNNN w))
  | 0xB#4 => .ok (.jumpOffset (fieldNNN w))
  | 0xC#4 => .ok (.rand (fieldX w) (fieldNN w))
  | 0xD#4 => .ok (.drawSprite (fieldX w) (fieldY w) (fieldN w))
  | 0xE#4 => dispatchFamilyE w
  | 0xF#4 => dispatchFamilyF w
  | _ => .error (.unknownOpcode w)   -- no such family: the sixteen above are all

/-- R51: the instruction word is big-endian, its high byte at the lower address. -/
def wordOfBytes (hi lo : Byte) : Word := hi ++ lo

/-- Decoding a byte stream: an instruction is always two bytes (R71); the rest of the bytes is answered too. -/
def decode : List Byte → Except DecodeError (Instr × List Byte)
  | hi :: lo :: rest =>
    match dispatch (wordOfBytes hi lo) with
    | .ok i => .ok (i, rest)
    | .error e => .error e
  | _ => .error .truncated

/-! ### Encode (R80) -/

/-- The word `{family, NNN}` (R73). -/
def wordNNN (f : Nibble) (nnn : Addr12) : Word := f ++ nnn

/-- The word `{family, X, NN}` (R73). -/
def wordXNN (f x : Nibble) (nn : Byte) : Word := f ++ x ++ nn

/-- The word `{family, X, Y, N}` (R73). -/
def wordXYN (f x y n : Nibble) : Word := f ++ x ++ y ++ n

/-- The word of an instruction, from the "word" column of R80. -/
def encode : Instr → Word
  | .clearScreen ign => wordXNN 0x0#4 ign 0xE0#8
  | .ret ign => wordXNN 0x0#4 ign 0xEE#8
  | .jump nnn => wordNNN 0x1#4 nnn
  | .call nnn => wordNNN 0x2#4 nnn
  | .skipEqImm x nn => wordXNN 0x3#4 x nn
  | .skipNeqImm x nn => wordXNN 0x4#4 x nn
  | .skipEqReg x y ign => wordXYN 0x5#4 x y ign
  | .setImm x nn => wordXNN 0x6#4 x nn
  | .addImm x nn => wordXNN 0x7#4 x nn
  | .setReg x y => wordXYN 0x8#4 x y 0x0#4
  | .orReg x y => wordXYN 0x8#4 x y 0x1#4
  | .andReg x y => wordXYN 0x8#4 x y 0x2#4
  | .xorReg x y => wordXYN 0x8#4 x y 0x3#4
  | .addReg x y => wordXYN 0x8#4 x y 0x4#4
  | .subReg x y => wordXYN 0x8#4 x y 0x5#4
  | .shiftRight x ign => wordXYN 0x8#4 x ign 0x6#4
  | .subn x y => wordXYN 0x8#4 x y 0x7#4
  | .shiftLeft x ign => wordXYN 0x8#4 x ign 0xE#4
  | .skipNeqReg x y ign => wordXYN 0x9#4 x y ign
  | .setIndex nnn => wordNNN 0xA#4 nnn
  | .jumpOffset nnn => wordNNN 0xB#4 nnn
  | .rand x nn => wordXNN 0xC#4 x nn
  | .drawSprite x y n => wordXYN 0xD#4 x y n
  | .skipKeyPressed x => wordXNN 0xE#4 x 0x9E#8
  | .skipKeyNotPressed x => wordXNN 0xE#4 x 0xA1#8
  | .getDelay x => wordXNN 0xF#4 x 0x07#8
  | .waitKey x => wordXNN 0xF#4 x 0x0A#8
  | .setDelay x => wordXNN 0xF#4 x 0x15#8
  | .setSound x => wordXNN 0xF#4 x 0x18#8
  | .addIndex x => wordXNN 0xF#4 x 0x1E#8
  | .fontAddr x => wordXNN 0xF#4 x 0x29#8
  | .storeBcd x => wordXNN 0xF#4 x 0x33#8
  | .regDump x => wordXNN 0xF#4 x 0x55#8
  | .regLoad x => wordXNN 0xF#4 x 0x65#8

/-- The high byte of a word, which stands at the lower address (R51). -/
def highByte (w : Word) : Byte := w.extractLsb' 8 8

/-- The low byte of a word, which stands at the higher address (R51). -/
def lowByte (w : Word) : Byte := w.extractLsb' 0 8

/-- The two bytes of an instruction in memory order (R51, R71). -/
def encodeBytes (i : Instr) : List Byte := [highByte (encode i), lowByte (encode i)]

/-! ### The opcode map as a table (R75) -/

/-- The mnemonic of an instruction, as R75 and spec/opcode_table.json spell it. -/
def Instr.mnemonic : Instr → String
  | .clearScreen _ => "clear-screen"
  | .ret _ => "return"
  | .jump _ => "jump"
  | .call _ => "call"
  | .skipEqImm _ _ => "skip-eq-imm"
  | .skipNeqImm _ _ => "skip-neq-imm"
  | .skipEqReg _ _ _ => "skip-eq-reg"
  | .setImm _ _ => "set-imm"
  | .addImm _ _ => "add-imm"
  | .setReg _ _ => "set-reg"
  | .orReg _ _ => "or"
  | .andReg _ _ => "and"
  | .xorReg _ _ => "xor"
  | .addReg _ _ => "add-reg"
  | .subReg _ _ => "sub-reg"
  | .shiftRight _ _ => "shift-right"
  | .subn _ _ => "subn"
  | .shiftLeft _ _ => "shift-left"
  | .skipNeqReg _ _ _ => "skip-neq-reg"
  | .setIndex _ => "set-index"
  | .jumpOffset _ => "jump-offset"
  | .rand _ _ => "rand"
  | .drawSprite _ _ _ => "draw-sprite"
  | .skipKeyPressed _ => "skip-key-pressed"
  | .skipKeyNotPressed _ => "skip-key-not-pressed"
  | .getDelay _ => "get-delay"
  | .waitKey _ => "wait-key"
  | .setDelay _ => "set-delay"
  | .setSound _ => "set-sound"
  | .addIndex _ => "add-index"
  | .fontAddr _ => "font-addr"
  | .storeBcd _ => "store-bcd"
  | .regDump _ => "reg-dump"
  | .regLoad _ => "reg-load"

/-- One row of R75's table: a word selects it if and only if `w & mask = pattern`, and `read` takes the row's fields
from the word. -/
structure OpcodeRow where
  mnemonic : String
  pattern : Word
  mask : Word
  read : Word → Instr

/-- Rows 1 to 9 of R75's table. -/
def opcodeRowsA : List OpcodeRow := [
  ⟨"clear-screen", 0x00E0, 0xF0FF, fun w => .clearScreen (fieldX w)⟩,
  ⟨"return", 0x00EE, 0xF0FF, fun w => .ret (fieldX w)⟩,
  ⟨"jump", 0x1000, 0xF000, fun w => .jump (fieldNNN w)⟩,
  ⟨"call", 0x2000, 0xF000, fun w => .call (fieldNNN w)⟩,
  ⟨"skip-eq-imm", 0x3000, 0xF000, fun w => .skipEqImm (fieldX w) (fieldNN w)⟩,
  ⟨"skip-neq-imm", 0x4000, 0xF000, fun w => .skipNeqImm (fieldX w) (fieldNN w)⟩,
  ⟨"skip-eq-reg", 0x5000, 0xF000, fun w => .skipEqReg (fieldX w) (fieldY w) (fieldN w)⟩,
  ⟨"set-imm", 0x6000, 0xF000, fun w => .setImm (fieldX w) (fieldNN w)⟩,
  ⟨"add-imm", 0x7000, 0xF000, fun w => .addImm (fieldX w) (fieldNN w)⟩]

/-- Rows 10 to 18 of R75's table. -/
def opcodeRowsB : List OpcodeRow := [
  ⟨"set-reg", 0x8000, 0xF00F, fun w => .setReg (fieldX w) (fieldY w)⟩,
  ⟨"or", 0x8001, 0xF00F, fun w => .orReg (fieldX w) (fieldY w)⟩,
  ⟨"and", 0x8002, 0xF00F, fun w => .andReg (fieldX w) (fieldY w)⟩,
  ⟨"xor", 0x8003, 0xF00F, fun w => .xorReg (fieldX w) (fieldY w)⟩,
  ⟨"add-reg", 0x8004, 0xF00F, fun w => .addReg (fieldX w) (fieldY w)⟩,
  ⟨"sub-reg", 0x8005, 0xF00F, fun w => .subReg (fieldX w) (fieldY w)⟩,
  ⟨"shift-right", 0x8006, 0xF00F, fun w => .shiftRight (fieldX w) (fieldY w)⟩,
  ⟨"subn", 0x8007, 0xF00F, fun w => .subn (fieldX w) (fieldY w)⟩,
  ⟨"shift-left", 0x800E, 0xF00F, fun w => .shiftLeft (fieldX w) (fieldY w)⟩]

/-- Rows 19 to 25 of R75's table. -/
def opcodeRowsC : List OpcodeRow := [
  ⟨"skip-neq-reg", 0x9000, 0xF000, fun w => .skipNeqReg (fieldX w) (fieldY w) (fieldN w)⟩,
  ⟨"set-index", 0xA000, 0xF000, fun w => .setIndex (fieldNNN w)⟩,
  ⟨"jump-offset", 0xB000, 0xF000, fun w => .jumpOffset (fieldNNN w)⟩,
  ⟨"rand", 0xC000, 0xF000, fun w => .rand (fieldX w) (fieldNN w)⟩,
  ⟨"draw-sprite", 0xD000, 0xF000, fun w => .drawSprite (fieldX w) (fieldY w) (fieldN w)⟩,
  ⟨"skip-key-pressed", 0xE09E, 0xF0FF, fun w => .skipKeyPressed (fieldX w)⟩,
  ⟨"skip-key-not-pressed", 0xE0A1, 0xF0FF, fun w => .skipKeyNotPressed (fieldX w)⟩]

/-- Rows 26 to 34 of R75's table. -/
def opcodeRowsD : List OpcodeRow := [
  ⟨"get-delay", 0xF007, 0xF0FF, fun w => .getDelay (fieldX w)⟩,
  ⟨"wait-key", 0xF00A, 0xF0FF, fun w => .waitKey (fieldX w)⟩,
  ⟨"set-delay", 0xF015, 0xF0FF, fun w => .setDelay (fieldX w)⟩,
  ⟨"set-sound", 0xF018, 0xF0FF, fun w => .setSound (fieldX w)⟩,
  ⟨"add-index", 0xF01E, 0xF0FF, fun w => .addIndex (fieldX w)⟩,
  ⟨"font-addr", 0xF029, 0xF0FF, fun w => .fontAddr (fieldX w)⟩,
  ⟨"store-bcd", 0xF033, 0xF0FF, fun w => .storeBcd (fieldX w)⟩,
  ⟨"reg-dump", 0xF055, 0xF0FF, fun w => .regDump (fieldX w)⟩,
  ⟨"reg-load", 0xF065, 0xF0FF, fun w => .regLoad (fieldX w)⟩]

/-- The opcode map of R75, all 34 rows. -/
def opcodeMap : List OpcodeRow := opcodeRowsA ++ opcodeRowsB ++ opcodeRowsC ++ opcodeRowsD

/-! ### The host's view of a table word -/

/-- The bytes of a table word as the hardware stores them: the high byte first (R51). Every bit at or above
`nbits` is 0, and an instruction is one 16-bit word (R71). -/
def tableWord (nbits w : Nat) : Word := BitVec.ofNat 16 (w % 2 ^ nbits)

/-- The instruction that the decoder reads from a table word (fixed name of the host). -/
def decodeTableWord (nbits w : Nat) : Option Instr :=
  match decode [highByte (tableWord nbits w), lowByte (tableWord nbits w)] with
  | .ok (i, _) => some i
  | .error _ => none

end Sys2Proof
end

