-- ==== Sys2Proof/Config.lean ====
section
/-!
DEFINITION. The implementation parameters of spec 00_scope.md R7, and the one free value of the model.
The parameter FONT of R7 is `Sys2Proof.Machine.fontByte`, in Machine/Font.lean.
-/
namespace Sys2Proof.Config

/-- `MEM_SIZE`: 4096 bytes, addresses 0x000 to 0xFFF (R7). -/
abbrev memSize : Nat := 4096

/-- `FONT_BASE` is 0x000 and the font table is 80 bytes long (R7). -/
abbrev fontSize : Nat := 80

/-- `PROG_BASE`: the load address and the reset pc (R7). -/
abbrev progBase : Nat := 0x200

/-- `MAX_PROG`: 4096 − 512 bytes (R7). -/
abbrev maxProg : Nat := 3584

/-- `FB_W`: pixels in a framebuffer row (R7). -/
abbrev fbWidth : Nat := 64

/-- `FB_W × FB_H`: pixels in the framebuffer (R7). -/
abbrev fbSize : Nat := 2048

/-- The byte that the n-th draw of `RAND` answers when the host has put no byte on `rand_in` (R150, D17).
It has no body: no proof can see a value of it, so a claim about a draw holds for every byte.
DESIGN CHOICE (notes/assumptions/2.md). -/
opaque freeDraw : Nat → Byte

end Sys2Proof.Config
end

