-- ==== Sys2Proof/Machine/Font.lean ====
section
/-!
DEFINITION. The parameter `FONT`: the 80 bytes of 0x000–0x04F after reset (spec 10_state.md R27, R7, D19).
The spec leaves the parameter open with this default; the model takes the default.
PRESUMED (notes/assumptions/1.md).
-/
namespace Sys2Proof.Machine

/-- Glyphs 0 to 3. -/
def fontA : List Byte :=
  [0xF0, 0x90, 0x90, 0x90, 0xF0] ++ [0x20, 0x60, 0x20, 0x20, 0x70] ++
  [0xF0, 0x10, 0xF0, 0x80, 0xF0] ++ [0xF0, 0x10, 0xF0, 0x10, 0xF0]

/-- Glyphs 4 to 7. -/
def fontB : List Byte :=
  [0x90, 0x90, 0xF0, 0x10, 0x10] ++ [0xF0, 0x80, 0xF0, 0x10, 0xF0] ++
  [0xF0, 0x80, 0xF0, 0x90, 0xF0] ++ [0xF0, 0x10, 0x20, 0x40, 0x40]

/-- Glyphs 8 to B. -/
def fontC : List Byte :=
  [0xF0, 0x90, 0xF0, 0x90, 0xF0] ++ [0xF0, 0x90, 0xF0, 0x10, 0xF0] ++
  [0xF0, 0x90, 0xF0, 0x90, 0x90] ++ [0xE0, 0x90, 0xE0, 0x90, 0xE0]

/-- Glyphs C to F. -/
def fontD : List Byte :=
  [0xF0, 0x80, 0x80, 0x80, 0xF0] ++ [0xE0, 0x90, 0x90, 0x90, 0xE0] ++
  [0xF0, 0x80, 0xF0, 0x80, 0xF0] ++ [0xF0, 0x80, 0xF0, 0x80, 0x80]

/-- The font table: 16 glyphs of 5 bytes (R27). -/
def font : List Byte := fontA ++ fontB ++ fontC ++ fontD

/-- Byte `a` of the font table. -/
def fontByte (a : Nat) : Byte := font.getD a 0

end Sys2Proof.Machine
end

