-- ==== Sys2Proof/Machine/State.lean ====
section
/-!
DEFINITION. The state of the block (spec 10_state.md), the reasons a step could stop, and the reset state
(spec 70_reset_and_hazards.md R260). INVENTORY.md lists every field with its rule and its reset value.
-/
namespace Sys2Proof.Machine

/-- Main memory `mem[0..4095]` (R27, R50) as the list of the bytes that differ from the reset contents, by
rising address. `Memory.read` says what the list stands for and `Memory.wf` says its canonical form
(Machine/Memory.lean). -/
abbrev Memory := List Host.Cell

/-- The framebuffer `fb` (R28): row y, bit x is pixel(x,y), which is `fb[x + y*64]`. -/
abbrev Framebuffer := Vector PixelRow 32

/-- The outcome of the most recent step, readable by the host only (R32, R221). -/
inductive Status where
  | run
  | waitKey
  | haltUnknownOpcode
  | haltStackOverflow
  | haltStackUnderflow
  deriving DecidableEq, Repr

/-- The kinds of a step's fault (R220). LoadError is the result of a port, not a kind of these (D34). -/
inductive FaultKind where
  /-- The fetched word matches no row of the opcode map (R77). -/
  | unknownOpcode
  /-- call with sp = 16 (R104). -/
  | stackOverflow
  /-- return with sp = 0 (R101). -/
  | stackUnderflow
  deriving DecidableEq, Repr

/-- The fault record `(kind, fault_pc, fault_word)` (R32, R224). -/
structure FaultRecord where
  kind : FaultKind
  pc : Word
  word : Word
  deriving DecidableEq, Repr

/-- The whole state of the block (R20 to R34), then two fields of the model's own for the parameter RAND. -/
structure State where
  /-- Main memory, 4096 bytes (R27). -/
  mem : Memory
  /-- The general registers V0 to VF (R20). -/
  v : Vector Byte 16
  /-- The index register (R24). -/
  I : Word
  /-- The program counter (R22). -/
  pc : Word
  /-- The call stack `stack[0..15]` (R25). -/
  stack : Vector Word 16
  /-- The number of live stack entries, 0 to 16 (R25, R105). -/
  sp : Fin 17
  /-- The delay timer DT (R26). -/
  dt : Byte
  /-- The sound timer ST (R26). -/
  st : Byte
  /-- The framebuffer, 64 × 32 one-bit pixels (R28). -/
  fb : Framebuffer
  /-- The redraw flag (R29). -/
  redraw : Bool
  /-- The key-down bits: bit k is `keypad[k]` (R30, R244). Only the host writes it. -/
  keypad : BitVec 16
  /-- Whether the sound timer went from 1 to 0 in the most recent step (R31). -/
  soundEdge : Bool
  /-- The outcome of the most recent step (R32). -/
  status : Status
  /-- The record of the fault that halted the block, or none (R32). -/
  fault : Option FaultRecord
  /-- The model's own: bytes the host has put on `rand_in` that no draw has taken (R240, D17).
  DESIGN CHOICE (notes/assumptions/2.md). -/
  randIn : List Byte
  /-- The model's own: how many draws have been taken. DESIGN CHOICE (notes/assumptions/2.md). -/
  draws : Nat
  deriving DecidableEq, Repr

/-- Why a step could stop the machine: nothing. Every error of the spec (R220) is a recorded fault in `State`,
after which the block goes on answering steps (R225), so no step raises a `Fault` and the type has no
constructor. Safe (notes/assumptions/5.md). -/
inductive Fault
  deriving DecidableEq, Repr

/-- Why an instruction could be given no meaning. -/
inductive Refusal where
  /-- Raised by exec's arm of an instruction that has no meaning yet; no arm does. Safe. -/
  | notModelled (mnemonic : String)
  deriving DecidableEq, Repr

/-- What a meaning and a step answer. -/
abbrev Result := Host.Outcome State Fault Refusal

/-- R260: the state right after reset. Memory lists nothing: it reads as its reset contents, FONT at
0x000–0x04F and 0 elsewhere. -/
def State.reset : State where
  mem := []
  v := Vector.replicate 16 0
  I := 0
  pc := 0x200
  stack := Vector.replicate 16 0
  sp := 0
  dt := 0
  st := 0
  fb := Vector.replicate 32 0
  redraw := false
  keypad := 0
  soundEdge := false
  status := .run
  fault := none
  randIn := []
  draws := 0

end Sys2Proof.Machine
end

