-- ==== Sys2Proof/Machine/Memory.lean ====
section
/-!
DEFINITION. Main memory: what an address that is not listed reads as, one byte read, one byte written, and
the canonical form (spec 20_memory.md R50 to R57, 10_state.md R27). The address here is already reduced to
0..4095; `State.readByte` and `State.writeByte` (Machine/Operands.lean) reduce it.
-/
namespace Sys2Proof.Machine

/-- What an address that is not listed reads as: its reset contents, FONT at 0x000–0x04F and 0 elsewhere
(R27, R56, R260; notes/assumptions/8.md). -/
def Memory.unlisted (a : Nat) : Byte := if a < Config.fontSize then fontByte a else 0

/-- The byte at address `a`. -/
def Memory.read : Memory → Nat → Byte
  | [], a => Memory.unlisted a
  | (a', b) :: m, a => if a = a' then b else Memory.read m a

/-- One cell in front of a memory, left out when it holds what its address reads as unlisted. -/
def Memory.cons (a : Nat) (b : Byte) (m : Memory) : Memory :=
  if b = Memory.unlisted a then m else (a, b) :: m

/-- Write byte `b` at address `a`, keeping the canonical form. -/
def Memory.put : Memory → Nat → Byte → Memory
  | [], a, b => Memory.cons a b []
  | (a', b') :: m, a, b =>
    if a < a' then Memory.cons a b ((a', b') :: m)
    else if a = a' then Memory.cons a b m
    else (a', b') :: Memory.put m a b

/-- Write bytes at ascending addresses from `a`. -/
def Memory.putBytes : Memory → Nat → List Byte → Memory
  | m, _, [] => m
  | m, a, b :: bs => Memory.putBytes (Memory.put m a b) (a + 1) bs

/-- The canonical form: addresses inside the 4096 bytes and strictly rising, and no cell that equals what its
address reads as unlisted. -/
def Memory.wf : Memory → Bool
  | [] => true
  | (a, b) :: m =>
    decide (a < Config.memSize) && (b != Memory.unlisted a) && m.all (fun c => decide (a < c.1)) &&
      Memory.wf m

end Sys2Proof.Machine
end

