-- ==== Sys2Proof/Machine/Operands.lean ====
section
/-!
DEFINITION. Operand access: registers, memory bytes through an address mod 4096, zero extension, keys, pixels
(spec 00_scope.md R10, R11; 20_memory.md R53; 30_encoding.md R74; 43_display.md R181; 44_keypad_timers.md R202).
-/
namespace Sys2Proof.Machine

/-- `V[x]` (R10, R20). -/
def State.getV (s : State) (x : Nibble) : Byte := s.v[x.toNat]'x.isLt

/-- `V[x] <- b` (R10, R20). No register is hardwired. -/
def State.setV (s : State) (x : Nibble) (b : Byte) : State :=
  { s with v := s.v.set x.toNat b x.isLt }

/-- The index of VF (R21). -/
def vf : Nibble := 0xF

/-- The index of V0, the implicit operand of jump-offset (R110). -/
def v0 : Nibble := 0x0

/-- `zext_16` of a byte (R9, R74). -/
def zextByte (b : Byte) : Word := b.setWidth 16

/-- `zext_16` of NNN (R74). -/
def zextAddr (nnn : Addr12) : Word := nnn.setWidth 16

/-- `MemRead(addr, 1)`: the byte `mem[addr mod 4096]` (R11, R53). -/
def State.readByte (s : State) (addr : Nat) : Byte := Memory.read s.mem (addr % Config.memSize)

/-- `MemWrite(addr, 1, b)`: `mem[addr mod 4096] <- b` (R11, R53). -/
def State.writeByte (s : State) (addr : Nat) (b : Byte) : State :=
  { s with mem := Memory.put s.mem (addr % Config.memSize) b }

/-- The address `I + offset`, exact: the access reduces it mod 4096 (R53). -/
def State.indexed (s : State) (offset : Nat) : Nat := s.I.toNat + offset

/-- Registers V0 to Vk-1 stored at `I`, `I + 1`, … in ascending order (R165). -/
def State.dumpRegs (s : State) : Nat → State
  | 0 => s
  | k + 1 => (s.dumpRegs k).writeByte (s.indexed k) (s.getV (BitVec.ofNat 4 k))

/-- Registers V0 to Vk-1 loaded from `I`, `I + 1`, … in ascending order (R166). -/
def State.loadRegs (s : State) : Nat → State
  | 0 => s
  | k + 1 => (s.loadRegs k).setV (BitVec.ofNat 4 k) (s.readByte (s.indexed k))

/-- R202: `key_down(v) = keypad[v]` for v ≤ 15, and 0 for v ≥ 16. -/
def State.keyDown (s : State) (v : Byte) : Bool :=
  if v.toNat < 16 then s.keypad.getLsbD v.toNat else false

/-- The lowest key that is down (R205: "scan keypad 0..15 in order"). -/
def State.firstKey (s : State) : Option Nat := (List.range 16).find? fun k => s.keypad.getLsbD k

/-- `fb[k]`: pixel (k mod 64, k / 64) (R28, R245). -/
def fbPixel (fb : Framebuffer) (k : Nat) : Bool :=
  if h : k / Config.fbWidth < 32 then (fb[k / Config.fbWidth]).getLsbD (k % Config.fbWidth) else false

/-- `fb[k] <- fb[k] ^ 1` (R182). -/
def fbFlip (fb : Framebuffer) (k : Nat) : Framebuffer :=
  if h : k / Config.fbWidth < 32 then
    fb.set (k / Config.fbWidth)
      (fb[k / Config.fbWidth] ^^^ BitVec.twoPow Config.fbWidth (k % Config.fbWidth))
  else fb

/-- `fb[k]` of a state. -/
def State.pixel (s : State) (k : Nat) : Bool := fbPixel s.fb k

/-- R181: the pixel of the sprite bit at row `r` and column `c` of a sprite drawn at (x0, y0). -/
def pixelIndex (x0 y0 : Byte) (r c : Nat) : Nat :=
  ((x0.toNat + c) + (y0.toNat + r) * Config.fbWidth) % Config.fbSize

end Sys2Proof.Machine
end

