-- ==== Sys2Proof/Machine/Flags.lean ====
section
/-!
DEFINITION. The flag output VF (spec 10_state.md R21, R23; 41_alu.md R131, R139 to R143). Every flag is
computed from the operand values before the instruction, over the integers.
-/
namespace Sys2Proof.Machine

/-- VF of add-reg: 1 iff `a + b > 255` "computed in unbounded arithmetic" (R139). -/
def carryOut (a b : Byte) : Bool := decide (a.toNat + b.toNat > 255)

/-- VF of a subtraction `a − b`: 0 iff `b > a` (R140, R142). -/
def noBorrow (a b : Byte) : Bool := !decide (b.toNat > a.toNat)

/-- VF of shift-right: "low bit of Vx before shift" (R141). -/
def lowBitOut (a : Byte) : Bool := a.getLsbD 0

/-- VF of shift-left: "high bit of Vx before shift" (R143). -/
def highBitOut (a : Byte) : Bool := a.getLsbD 7

/-- A flag as the value VF takes: 1 or 0. -/
def flagByte (f : Bool) : Byte := if f then 1 else 0

/-- R131: "They then write the result to Vx first and the flag to VF second", so with X = 0xF VF ends as the
flag. -/
def State.setVThenFlag (s : State) (x : Nibble) (result : Byte) (flag : Bool) : State :=
  (s.setV x result).setV vf (flagByte flag)

end Sys2Proof.Machine
end

