-- ==== Sys2Proof/Machine/Ops.lean ====
section
/-!
DEFINITION. The operations the meanings and the step share: the pc policies (spec 40_control_flow.md R100),
raising a fault (60_exceptions.md R222 to R226), the wait (R205), the random draw (41_alu.md R150), the fetch
(30_encoding.md R70), the timer tick (60_exceptions.md R230) and the halted step (R225).
The block has no return from a fault: "The block has no trap-return instruction and no nesting" (R228); the way
back is the reset port (Machine/Ports.lean).
-/
namespace Sys2Proof.Machine

/-! ### pc policies (R100) -/

/-- "+2": `pc <- (pc + 2) mod 2^16`. -/
def State.advance (s : State) : State := { s with pc := s.pc + 2 }

/-- "conditional": `pc <- (pc + 4) mod 2^16` if the condition holds, else "+2". -/
def State.skipIf (s : State) (c : Bool) : State := { s with pc := if c then s.pc + 4 else s.pc + 2 }

/-- "set by op": `pc <- target`. -/
def State.jumpTo (s : State) (target : Word) : State := { s with pc := target }

/-! ### Fetch (R51, R53, R70) -/

/-- The word at pc: `(MemRead(pc, 1) << 8) | MemRead(pc + 1, 1)`, each address mod 4096. -/
def State.fetchWord (s : State) : Word :=
  wordOfBytes (s.readByte s.pc.toNat) (s.readByte (s.pc.toNat + 1))

/-- Fetch and dispatch: the instruction at pc, or why there is none. -/
def State.fetchInstr (s : State) : Except DecodeError Instr := dispatch s.fetchWord

/-! ### Faults and the wait -/

/-- The halt code of a fault kind (R221, R224). -/
def FaultKind.haltStatus : FaultKind → Status
  | .unknownOpcode => .haltUnknownOpcode
  | .stackOverflow => .haltStackOverflow
  | .stackUnderflow => .haltStackUnderflow

/-- The number of a status value (R32, R221). -/
def Status.code : Status → Nat
  | .run => 0
  | .waitKey => 1
  | .haltUnknownOpcode => 2
  | .haltStackOverflow => 3
  | .haltStackUnderflow => 4

/-- `raise Fault(kind, (pc, w))` (R12, R223, R224): the record is written with the faulting word's address and
the fetched word, the status becomes the kind's halt code, and nothing else changes; pc stays. The word is read
again at pc, where the step fetched it (R13; DEDUCED, notes/assumptions/4.md). -/
def State.raise (s : State) (k : FaultKind) : State :=
  { s with fault := some ⟨k, s.pc, s.fetchWord⟩, status := k.haltStatus }

/-- `wait()` (R12, R205): pc is not advanced and the step reports WAIT_KEY. -/
def State.wait (s : State) : State := { s with status := .waitKey }

/-- The block is halted while `fault ≠ none` (R225). -/
def State.halted (s : State) : Bool := s.fault.isSome

/-! ### The random draw (R150) -/

/-- The byte that the next draw answers: the first byte the host put on `rand_in`, else a free value
(notes/assumptions/2.md). -/
def State.nextDraw (s : State) : Byte := s.randIn.headD (Config.freeDraw s.draws)

/-- The state after a draw: the byte is taken, and the next draw is a new one. -/
def State.afterDraw (s : State) : State :=
  { s with randIn := s.randIn.tail, draws := s.draws + 1 }

/-! ### The timer tick (R230) -/

/-- One countdown: down by 1 while above 0, "floor at zero" (R26). -/
def countDown (t : Byte) : Byte := if t = 0 then 0 else t - 1

/-- R230: both timers count down, and soundEdge says whether ST went from 1 to 0 in this tick. -/
def State.tick (s : State) : State :=
  { s with dt := countDown s.dt, st := countDown s.st, soundEdge := s.st == 1 }

/-! ### The parts of a step (R70) -/

/-- The status a step reports unless its instruction waits or faults: RUN (R221). It is written before the
instruction; no instruction reads it (R32; notes/assumptions/3.md). -/
def State.beginStep (s : State) : State := { s with status := .run }

/-- R225: a halted step sets soundEdge to 0 and reports the halt code of the fault again. -/
def State.haltedStep (s : State) : State :=
  match s.fault with
  | some f => { s with soundEdge := false, status := f.kind.haltStatus }
  | none => s

/-- The step of an unknown opcode: the fault UnknownOpcode, then the tick (R77, R224). -/
def State.unknownOpcodeStep (s : State) : State := (s.raise .unknownOpcode).tick

/-- The tick after an instruction, which runs after a wait or a fault too (R70, R230). -/
def finishStep : Result → Result
  | .next s => .next s.tick
  | .fault f => .fault f
  | .refused r => .refused r

end Sys2Proof.Machine
end

