-- ==== Sys2Proof/Machine/Alu.lean ====
section
/-!
DEFINITION. Register and ALU instructions (spec 41_alu.md): set-imm, add-imm, set-reg, or, and, xor, add-reg,
sub-reg, shift-right, subn, shift-left, rand. Every one has pc policy "+2" and raises nothing.
-/
namespace Sys2Proof.Machine

/-- `(a + b) mod 256` (R130). -/
def addMod (a b : Byte) : Byte := BitVec.ofNat 8 (a.toNat + b.toNat)

/-- `(a − b) mod 256` (R130). -/
def subMod (a b : Byte) : Byte := BitVec.ofInt 8 ((a.toNat : Int) - (b.toNat : Int))

/-- Write one result to Vx and go on: the shape of the instructions that leave VF alone (R132). -/
def State.result (s : State) (x : Nibble) (b : Byte) : Result := .next (s.setV x b).advance

/-- Write a result to Vx, then a flag to VF, and go on: the shape of the flag writers (R131). -/
def State.resultAndFlag (s : State) (x : Nibble) (b : Byte) (f : Bool) : Result :=
  .next (s.setVThenFlag x b f).advance

/-- R133 set-imm: "Vx=NN". -/
def execSetImm (x : Nibble) (nn : Byte) (s : State) : Result := s.result x nn

/-- R134 add-imm: "Vx+=NN (no carry flag)". -/
def execAddImm (x : Nibble) (nn : Byte) (s : State) : Result := s.result x (addMod (s.getV x) nn)

/-- R135 set-reg: "Vx=Vy". -/
def execSetReg (x y : Nibble) (s : State) : Result := s.result x (s.getV y)

/-- R136 or. -/
def execOr (x y : Nibble) (s : State) : Result := s.result x (s.getV x ||| s.getV y)

/-- R137 and. -/
def execAnd (x y : Nibble) (s : State) : Result := s.result x (s.getV x &&& s.getV y)

/-- R138 xor. -/
def execXor (x y : Nibble) (s : State) : Result := s.result x (s.getV x ^^^ s.getV y)

/-- R139 add-reg: the sum mod 256, VF the carry. -/
def execAddReg (x y : Nibble) (s : State) : Result :=
  s.resultAndFlag x (addMod (s.getV x) (s.getV y)) (carryOut (s.getV x) (s.getV y))

/-- R140 sub-reg: Vx − Vy mod 256, VF "no borrow". -/
def execSubReg (x y : Nibble) (s : State) : Result :=
  s.resultAndFlag x (subMod (s.getV x) (s.getV y)) (noBorrow (s.getV x) (s.getV y))

/-- R141 shift-right of Vx by 1, VF the bit shifted out; Y is ignored. -/
def execShiftRight (x : Nibble) (s : State) : Result :=
  s.resultAndFlag x (s.getV x >>> 1) (lowBitOut (s.getV x))

/-- R142 subn: Vy − Vx mod 256, VF "no borrow". -/
def execSubn (x y : Nibble) (s : State) : Result :=
  s.resultAndFlag x (subMod (s.getV y) (s.getV x)) (noBorrow (s.getV y) (s.getV x))

/-- R143 shift-left of Vx by 1, VF the bit shifted out; Y is ignored. -/
def execShiftLeft (x : Nibble) (s : State) : Result :=
  s.resultAndFlag x (s.getV x <<< 1) (highBitOut (s.getV x))

/-- R150 rand: "Vx = random_byte() & NN"; each execution takes a new draw. -/
def execRand (x : Nibble) (nn : Byte) (s : State) : Result := s.afterDraw.result x (s.nextDraw &&& nn)

end Sys2Proof.Machine
end

