-- ==== Sys2Proof/Machine/Display.lean ====
section
/-!
DEFINITION. The framebuffer raster engine (spec 43_display.md): clear-screen and draw-sprite. Both have pc policy
"+2" and raise nothing.
-/
namespace Sys2Proof.Machine

/-- R180 clear-screen: "zero entire framebuffer, set redraw flag". -/
def execClearScreen (s : State) : Result :=
  .next { s with fb := Vector.replicate 32 0, redraw := true }.advance

/-- One set sprite bit on pixel `k`: the collision flag is sticky, and the pixel is toggled (R182). The pair is the
framebuffer and the flag `collide`. -/
def blitBit (k : Nat) (p : Framebuffer × Bool) : Framebuffer × Bool :=
  (fbFlip p.1 k, p.2 || fbPixel p.1 k)

/-- One sprite row: the columns left to right, "MSB-first" (R182). -/
def blitRow (x0 y0 : Byte) (r : Nat) (row : Byte) (p : Framebuffer × Bool) : Framebuffer × Bool :=
  (List.range 8).foldl
    (fun p c => if row.getLsbD (7 - c) then blitBit (pixelIndex x0 y0 r c) p else p) p

/-- The sprite's rows `0 … n-1`, each read from `mem[(I + r) mod 4096]`, in ascending order (R182). -/
def State.blit (s : State) (x0 y0 : Byte) (n : Nat) : Framebuffer × Bool :=
  (List.range n).foldl (fun p r => blitRow x0 y0 r (s.readByte (s.indexed r)) p) (s.fb, false)

/-- R182 draw-sprite: Vx, Vy and I are read before any write, the blit starts with `collide = 0`, then VF is the
collision flag, and the redraw flag is set unconditionally. -/
def execDrawSprite (x y n : Nibble) (s : State) : Result :=
  let p := s.blit (s.getV x) (s.getV y) n.toNat
  .next ({ s with fb := p.1, redraw := true }.setV vf (flagByte p.2)).advance

end Sys2Proof.Machine
end

