-- ==== Sys2Proof/Machine/Flow.lean ====
section
/-!
DEFINITION. Control flow and the stack controller (spec 40_control_flow.md): return, jump, call,
skip-eq-imm, skip-neq-imm, skip-eq-reg, skip-neq-reg, jump-offset.
-/
namespace Sys2Proof.Machine

/-- `stack[sp] <- b; sp <- sp + 1`, or none when sp = 16 (R104). -/
def State.push (s : State) (w : Word) : Option State :=
  if h : s.sp.val < 16 then some { s with stack := s.stack.set s.sp.val w, sp := ⟨s.sp.val + 1, by omega⟩ }
  else none

/-- `sp <- sp - 1` and the entry `stack[sp]`, which keeps its value; none when sp = 0 (R101). -/
def State.pop (s : State) : Option (Word × State) :=
  if h : s.sp.val = 0 then none
  else some (s.stack[s.sp.val - 1], { s with sp := ⟨s.sp.val - 1, by omega⟩ })

/-- R101 return: "pop call stack: `pc = callStack[--sp] + 2`". -/
def execRet (s : State) : Result :=
  match s.pop with
  | none => .next (s.raise .stackUnderflow)
  | some (w, s') => .next (s'.jumpTo (w + 2))

/-- R102 jump: "`pc = NNN`". -/
def execJump (nnn : Addr12) (s : State) : Result := .next (s.jumpTo (zextAddr nnn))

/-- R104 call: "push current `pc` onto call stack, `pc = NNN`". The address pushed is the call's own (R103). -/
def execCall (nnn : Addr12) (s : State) : Result :=
  match s.push s.pc with
  | none => .next (s.raise .stackOverflow)
  | some s' => .next (s'.jumpTo (zextAddr nnn))

/-- R106 skip-eq-imm. -/
def execSkipEqImm (x : Nibble) (nn : Byte) (s : State) : Result := .next (s.skipIf (s.getV x == nn))

/-- R107 skip-neq-imm. -/
def execSkipNeqImm (x : Nibble) (nn : Byte) (s : State) : Result := .next (s.skipIf (s.getV x != nn))

/-- R108 skip-eq-reg. -/
def execSkipEqReg (x y : Nibble) (s : State) : Result := .next (s.skipIf (s.getV x == s.getV y))

/-- R109 skip-neq-reg. -/
def execSkipNeqReg (x y : Nibble) (s : State) : Result := .next (s.skipIf (s.getV x != s.getV y))

/-- R110 jump-offset: "`pc=NNN+V0`"; the register is always V0 and the sum is not reduced to 12 bits. -/
def execJumpOffset (nnn : Addr12) (s : State) : Result :=
  .next (s.jumpTo (zextAddr nnn + zextByte (s.getV v0)))

end Sys2Proof.Machine
end

