-- ==== Sys2Proof/Machine/IndexMem.lean ====
section
/-!
DEFINITION. The index register and memory transfer (spec 42_index_memory.md): set-index, add-index, font-addr,
store-bcd, reg-dump, reg-load. Every one has pc policy "+2", raises nothing, and the transfers leave I alone.
-/
namespace Sys2Proof.Machine

/-- `I <- w`. -/
def State.setI (s : State) (w : Word) : State := { s with I := w }

/-- R160 set-index: "I=NNN". -/
def execSetIndex (nnn : Addr12) (s : State) : Result := .next (s.setI (zextAddr nnn)).advance

/-- R161 add-index: `I <- (I + zext_16(V[X])) mod 2^16`, VF unaffected. -/
def execAddIndex (x : Nibble) (s : State) : Result := .next (s.setI (s.I + zextByte (s.getV x))).advance

/-- R162 font-addr: "I = 5 * Vx", at most 1275. -/
def execFontAddr (x : Nibble) (s : State) : Result :=
  .next (s.setI (BitVec.ofNat 16 (5 * (s.getV x).toNat))).advance

/-- The hundreds digit `v / 100` (R163). -/
def bcdHundreds (v : Byte) : Byte := BitVec.ofNat 8 (v.toNat / 100)

/-- The tens digit `(v / 10) % 10` (R163). -/
def bcdTens (v : Byte) : Byte := BitVec.ofNat 8 (v.toNat / 10 % 10)

/-- The units digit `v % 10` (R163). -/
def bcdUnits (v : Byte) : Byte := BitVec.ofNat 8 (v.toNat % 10)

/-- R163 store-bcd: the three digits at I, I + 1 and I + 2, most significant first. -/
def execStoreBcd (x : Nibble) (s : State) : Result :=
  .next (((s.writeByte (s.indexed 0) (bcdHundreds (s.getV x))).writeByte (s.indexed 1)
    (bcdTens (s.getV x))).writeByte (s.indexed 2) (bcdUnits (s.getV x))).advance

/-- R165 reg-dump: "for i in 0..=X: `memory[I+i]=V[i]`; I unchanged". -/
def execRegDump (x : Nibble) (s : State) : Result := .next (s.dumpRegs (x.toNat + 1)).advance

/-- R166 reg-load: "for i in 0..=X: `V[i]=memory[I+i]`; I unchanged". -/
def execRegLoad (x : Nibble) (s : State) : Result := .next (s.loadRegs (x.toNat + 1)).advance

end Sys2Proof.Machine
end

