-- ==== Sys2Proof/Machine/KeypadTimers.lean ====
section
/-!
DEFINITION. Keypad and timer instructions (spec 44_keypad_timers.md): skip-key-pressed, skip-key-not-pressed,
get-delay, wait-key, set-delay, set-sound. The tick that follows them in the same step is `State.tick`.
-/
namespace Sys2Proof.Machine

/-- R200 skip-key-pressed. -/
def execSkipKeyPressed (x : Nibble) (s : State) : Result := .next (s.skipIf (s.keyDown (s.getV x)))

/-- R201 skip-key-not-pressed, the inverse. -/
def execSkipKeyNotPressed (x : Nibble) (s : State) : Result := .next (s.skipIf (!s.keyDown (s.getV x)))

/-- R203 get-delay: "Vx = delayTimer", as it stands before this step's tick. -/
def execGetDelay (x : Nibble) (s : State) : Result := .next (s.setV x s.dt).advance

/-- R205 wait-key: the lowest key that is down goes to Vx and pc advances; with no key down the step waits. -/
def execWaitKey (x : Nibble) (s : State) : Result :=
  match s.firstKey with
  | some k => .next (s.setV x (BitVec.ofNat 8 k)).advance
  | none => .next s.wait

/-- R207 set-delay: "delayTimer = Vx". -/
def execSetDelay (x : Nibble) (s : State) : Result := .next { s with dt := s.getV x }.advance

/-- R208 set-sound: "soundTimer = Vx". -/
def execSetSound (x : Nibble) (s : State) : Result := .next { s with st := s.getV x }.advance

end Sys2Proof.Machine
end

