-- ==== Sys2Proof/Machine/Step.lean ====
section
/-!
DEFINITION. One step of the block (spec 30_encoding.md R70): the halted check, fetch, dispatch, the instruction, the
tick. Every part is an operation of Machine/Ops.lean.
-/
namespace Sys2Proof.Machine

/-- R70, R226: "the halted check, fetch, dispatch (UnknownOpcode), the stack check (StackOverflow, StackUnderflow),
then the tick". -/
def step (s : State) : Host.Outcome State Fault Refusal :=
  if s.halted then .next s.haltedStep
  else
    match s.fetchInstr with
    | .ok i => finishStep (exec i s.beginStep)
    | .error _ => .next s.unknownOpcodeStep

/-- The state with the table word `w` stored at pc, its high byte first (R51), and not halted, so that the very
next step fetches and runs it (fixed name of the host; notes/assumptions/6.md). -/
def State.withFetchWord (s : State) (nbits w : Nat) : State :=
  { (s.writeByte s.pc.toNat (highByte (tableWord nbits w))).writeByte (s.pc.toNat + 1)
      (lowByte (tableWord nbits w)) with fault := none }

end Sys2Proof.Machine
end

