-- ==== Sys2Proof/Machine/Ports.lean ====
section
/-!
DEFINITION. The host interface (spec 60_exceptions.md R240 to R246, 70_reset_and_hazards.md R261): every port is a
transaction between steps (R242). A step is a transaction too.
-/
namespace Sys2Proof.Machine

/-- The error of the load port (R220, R243). It is no fault of a step and does not halt the block (D34). -/
inductive LoadError where
  /-- The image is longer than 3584 bytes. -/
  | imageTooLong
  deriving DecidableEq, Repr

/-- The transactions of R240. -/
inductive PortOp where
  | reset
  | load (bytes : List Byte)
  | step
  | keyIn (keys : BitVec 16)
  | fbOut
  | redrawConsume
  | soundEdge
  | statusOut
  | faultOut
  | randIn (draws : List Byte)
  deriving DecidableEq, Repr

/-- What a transaction answers the host. -/
inductive PortReply where
  | done
  | loadError (e : LoadError)
  | status (st : Status)
  | pixels (p : List Bool)
  | bit (b : Bool)
  | fault (f : Option FaultRecord)
  deriving DecidableEq, Repr

/-- R241: `reset` sets every element to its reset value (R260). The host's random source is a parameter of the step,
not state of the block (R33), so reset leaves it where it is (notes/assumptions/2.md). -/
def State.portReset (s : State) : State := { State.reset with randIn := s.randIn, draws := s.draws }

/-- R243: `load(bytes)` copies the image to 0x200 upward and changes nothing else; an image longer than 3584 bytes is
LoadError and writes nothing. -/
def State.load (s : State) (bytes : List Byte) : Except LoadError State :=
  if bytes.length > Config.maxProg then .error .imageTooLong
  else .ok { s with mem := Memory.putBytes s.mem Config.progBase bytes }

/-- R261: a reset request is `reset` followed by `load` with the program image. -/
def State.resetRequest (s : State) (image : List Byte) : Except LoadError State := s.portReset.load image

/-- R244: `key_in` replaces the 16-element key-down vector wholesale; bit k is key k. -/
def State.keyIn (s : State) (keys : BitVec 16) : State := { s with keypad := keys }

/-- R245: `fb_out` is the 2048-element pixel view; element k is `fb[k]`. -/
def State.fbOut (s : State) : List Bool := (List.range Config.fbSize).map s.pixel

/-- R246: `redraw_consume` answers the redraw flag and clears it. -/
def State.redrawConsume (s : State) : Bool × State := (s.redraw, { s with redraw := false })

/-- R240, R150: the host puts bytes on `rand_in`, which the next draws take in order (notes/assumptions/2.md). -/
def State.supplyRand (s : State) (bytes : List Byte) : State := { s with randIn := s.randIn ++ bytes }

/-- The reply of the step port: the status (R240, R221). -/
def stepReply : Result → Host.Outcome (PortReply × State) Fault Refusal
  | .next s => .next (.status s.status, s)
  | .fault f => .fault f
  | .refused r => .refused r

/-- The reply of the load port: done, or the error with the state as it was (R243). -/
def loadReply (s : State) : Except LoadError State → PortReply × State
  | .ok s' => (.done, s')
  | .error e => (.loadError e, s)

/-- One transaction of the host with the block (R240). -/
def transact (op : PortOp) (s : State) : Host.Outcome (PortReply × State) Fault Refusal :=
  match op with
  | .reset => .next (.done, s.portReset)
  | .load bytes => .next (loadReply s (s.load bytes))
  | .step => stepReply (step s)
  | .keyIn keys => .next (.done, s.keyIn keys)
  | .fbOut => .next (.pixels s.fbOut, s)
  | .redrawConsume => .next (.bit s.redrawConsume.1, s.redrawConsume.2)
  | .soundEdge => .next (.bit s.soundEdge, s)
  | .statusOut => .next (.status s.status, s)
  | .faultOut => .next (.fault s.fault, s)
  | .randIn bytes => .next (.done, s.supplyRand bytes)

end Sys2Proof.Machine
end

