-- ==== Sys2Proof/Safety.lean ====
section
/-!
DEFINITION. The terms claims are made in: what a step or an instruction leaves unchanged, the invariant of the block,
and the states the host can bring it to.
-/
namespace Sys2Proof.Machine

/-- The elements of the state (spec 10_state.md section 1), and the model's own random source. -/
inductive Element where
  | mem | regs | index | pc | stack | delay | sound | fb | redraw | keypad | soundEdge | status | fault | rand
  deriving DecidableEq, Repr

/-- An element is the same in two states. Memory and registers are compared through the model's reads. -/
def Element.Same (s t : State) : Element → Prop
  | .mem => ∀ a, t.readByte a = s.readByte a
  | .regs => ∀ r, t.getV r = s.getV r
  | .index => t.I = s.I
  | .pc => t.pc = s.pc
  | .stack => t.stack = s.stack ∧ t.sp = s.sp
  | .delay => t.dt = s.dt
  | .sound => t.st = s.st
  | .fb => t.fb = s.fb
  | .redraw => t.redraw = s.redraw
  | .keypad => t.keypad = s.keypad
  | .soundEdge => t.soundEdge = s.soundEdge
  | .status => t.status = s.status
  | .fault => t.fault = s.fault
  | .rand => t.randIn = s.randIn ∧ t.draws = s.draws

/-- The frame: every element but those named is the same. -/
def UnchangedBut (es : List Element) (s t : State) : Prop := ∀ e, e ∉ es → e.Same s t

/-- The words with `w & mask = pattern` select the instruction that `read` takes from their fields (R75). -/
def Selects (mask pattern : Word) (read : Word → Instr) : Prop :=
  ∀ w, w &&& mask = pattern → dispatch w = .ok (read w)

/-- R182: the sprite bit at row `r` and column `c`, "MSB-first": `(row >> (7 - c)) & 1` of the byte at `I + r`. -/
def State.spriteBit (s : State) (r c : Nat) : Bool := (s.readByte (s.I.toNat + r)).getLsbD (7 - c)

/-- R181, R182: pixel `k` is the target of a set bit of the sprite of height `n` drawn at (x0, y0). -/
def State.SpriteHits (s : State) (x0 y0 : Byte) (n k : Nat) : Prop :=
  ∃ r < n, ∃ c < 8, s.spriteBit r c = true ∧ k = ((x0.toNat + c) + (y0.toNat + r) * 64) % 2048

/-- R77: the words that are no instruction, exactly. -/
def unknownWord (w : Word) : Bool :=
  (family w == 0x0 && !([0xE0, 0xEE].contains (fieldNN w))) ||
  (family w == 0x8 && [0x8, 0x9, 0xA, 0xB, 0xC, 0xD, 0xF].contains (fieldN w)) ||
  (family w == 0xE && !([0x9E, 0xA1].contains (fieldNN w))) ||
  (family w == 0xF && !([0x07, 0x0A, 0x15, 0x18, 0x1E, 0x29, 0x33, 0x55, 0x65].contains (fieldNN w)))

/-- The state immediately before the tick of a step that is not halted (R70, R231): after the instruction, or after the
fault of an unknown opcode. -/
def BeforeTick (s u : State) : Prop :=
  (∃ i, dispatch s.fetchWord = .ok i ∧ exec i s.beginStep = .next u) ∨
    (dispatch s.fetchWord = .error (.unknownOpcode s.fetchWord) ∧ u = s.raise .unknownOpcode)

/-- The status agrees with the fault: halted exactly with the halt code of the fault's kind (R221, R225). -/
def State.statusAgrees (s : State) : Bool :=
  match s.fault with
  | none => s.status == .run || s.status == .waitKey
  | some f => s.status == f.kind.haltStatus

/-- What holds of the block between steps: memory is in canonical form, status and fault agree, and after a sound
edge the sound timer stands at 0 (R230, R231). -/
structure State.Inv (s : State) : Prop where
  mem_wf : Memory.wf s.mem = true
  status_agrees : s.statusAgrees = true
  edge_at_zero : s.soundEdge = true → s.st = 0

/-- The states the host can bring the block to: reset, then any transactions (R242, R262). -/
inductive Reachable : State → Prop where
  | reset : Reachable State.reset
  | transact {op : PortOp} {s s' : State} {reply : PortReply} :
      Reachable s → transact op s = .next (reply, s') → Reachable s'

end Sys2Proof.Machine
end

