-- ==== Sys2Proof/Certificates/Slice0/Obligations.lean ====
section
/-!
DEFINITION. The statements for the provers, in the order of the spec's files. OBLIGATIONS.json says of each what rule it
formalises. `UnchangedBut`, `Selects`, `State.SpriteHits`, `unknownWord`, `BeforeTick`, `State.Inv` and `Reachable` are in
Safety.lean. A statement that an instruction stores needs canonical memory (`Memory.wf`), which every step keeps
(`StepKeepsInvariant`).
-/

open Sys2Proof Sys2Proof.Machine

/-! ### Encoding (30_encoding.md) -/

/-- R13: `X = w[11:8]`, `Y = w[7:4]`, `N = w[3:0]`, `NN = w[7:0]` and `NNN = w[11:0]`, read as unsigned numbers (R8). -/
def Obligations.FieldsAreBitRanges : Prop :=
  ∀ w : Word,
    (fieldX w).toNat = w.toNat / 2 ^ 8 % 2 ^ 4 ∧ (fieldY w).toNat = w.toNat / 2 ^ 4 % 2 ^ 4 ∧
    (fieldN w).toNat = w.toNat % 2 ^ 4 ∧ (fieldNN w).toNat = w.toNat % 2 ^ 8 ∧
    (fieldNNN w).toNat = w.toNat % 2 ^ 12 ∧ (family w).toNat = w.toNat / 2 ^ 12

/-- R75: a word selects row k of the 34 rows if and only if `(w & mask_k) = match_k`, the row's instruction is read from
the row's fields, and a word matches at most one row. -/
def Obligations.OpcodeMapSelectsExactly : Prop :=
  opcodeMap.length = 34 ∧
  (∀ row ∈ opcodeMap, ∀ w : Word,
    (w &&& row.mask = row.pattern ↔ dispatch w = .ok (row.read w)) ∧ (row.read w).mnemonic = row.mnemonic) ∧
  (∀ w : Word, ∀ j k : Fin opcodeMap.length,
    w &&& opcodeMap[j].mask = opcodeMap[j].pattern → w &&& opcodeMap[k].mask = opcodeMap[k].pattern → j = k)

/-- R76: an instruction ignores every field its row does not list: with any value there the word is dispatched to the same
instruction and the result is the same. -/
def Obligations.IgnoredFieldsChangeNothing : Prop :=
  (Selects 0xF0FF 0x00E0 (fun w => .clearScreen (fieldX w)) ∧
    ∀ m n s, exec (.clearScreen m) s = exec (.clearScreen n) s) ∧
  (Selects 0xF0FF 0x00EE (fun w => .ret (fieldX w)) ∧ ∀ m n s, exec (.ret m) s = exec (.ret n) s) ∧
  (Selects 0xF000 0x5000 (fun w => .skipEqReg (fieldX w) (fieldY w) (fieldN w)) ∧
    ∀ x y m n s, exec (.skipEqReg x y m) s = exec (.skipEqReg x y n) s) ∧
  (Selects 0xF000 0x9000 (fun w => .skipNeqReg (fieldX w) (fieldY w) (fieldN w)) ∧
    ∀ x y m n s, exec (.skipNeqReg x y m) s = exec (.skipNeqReg x y n) s) ∧
  (Selects 0xF00F 0x8006 (fun w => .shiftRight (fieldX w) (fieldY w)) ∧
    ∀ x m n s, exec (.shiftRight x m) s = exec (.shiftRight x n) s) ∧
  (Selects 0xF00F 0x800E (fun w => .shiftLeft (fieldX w) (fieldY w)) ∧
    ∀ x m n s, exec (.shiftLeft x m) s = exec (.shiftLeft x n) s)

/-- R77: the unknown words are exactly those of the four lists: for each X 254 of family 0x0, 16 × 7 of family 0x8, 254 of 0xE
and 247 of 0xF, in total 13872; every other word is an instruction. Fetched by a block that is not halted, an unknown word
raises UnknownOpcode: the record holds pc and w, pc and all architectural state are unchanged but for the tick, and the
block is halted. -/
def Obligations.UnknownWordsFault : Prop :=
  (∀ w, unknownWord w = true ↔ dispatch w = .error (.unknownOpcode w)) ∧
  (∀ w, unknownWord w = false ↔ ∃ i, dispatch w = .ok i) ∧
  (∀ f x : Nibble, ((List.range 256).countP fun b => unknownWord (wordXNN f x (BitVec.ofNat 8 b))) =
    if f = 0x0 then 254 else if f = 0x8 then 16 * 7 else if f = 0xE then 254 else if f = 0xF then 247 else 0) ∧
  (((List.range 16).map fun f => ((List.range 16).map fun x => (List.range 256).countP fun b =>
    unknownWord (wordXNN (BitVec.ofNat 4 f) (BitVec.ofNat 4 x) (BitVec.ofNat 8 b))).sum).sum = 13872) ∧
  (∀ s : State, s.fault = none → unknownWord s.fetchWord = true →
    ∃ t, step s = .next t ∧ t.fault = some ⟨.unknownOpcode, s.pc, s.fetchWord⟩ ∧ t.halted = true ∧
      t.status = .haltUnknownOpcode ∧ UnchangedBut [.delay, .sound, .soundEdge, .status, .fault] s t)

/-- R71, R79, R51, R77: an instruction is two bytes, read as the word `high_byte << 8 | low_byte`, the first byte the high one; the
rest of the bytes is left alone, a word of the four lists is an unknown opcode, and fewer than two bytes are no instruction. -/
def Obligations.DecodeTakesTwoBytes : Prop :=
  (∀ bs i rest, decode bs = .ok (i, rest) → bs.length = rest.length + 2) ∧
  (∀ (hi lo : Byte) rest (w : Word), w.toNat = hi.toNat * 256 + lo.toNat →
    (∀ i, dispatch w = .ok i → decode (hi :: lo :: rest) = .ok (i, rest)) ∧
    (unknownWord w = true → decode (hi :: lo :: rest) = .error (.unknownOpcode w))) ∧
  (∀ b, decode [] = .error .truncated ∧ decode [b] = .error .truncated)

/-- Decode and encode agree: the bytes of any instruction, with every operand and every ignored field at every value, decode
to that instruction, whatever follows them. -/
def Obligations.DecodeOfEncode : Prop :=
  ∀ (i : Instr) (rest : List Byte), decode (encodeBytes i ++ rest) = .ok (i, rest)

/-- The other direction: a word has one meaning, and the word of the instruction it dispatches to is that word. -/
def Obligations.EncodeOfDispatch : Prop :=
  ∀ (w : Word) (i : Instr), dispatch w = .ok i → encode i = w

/-- A few words written out from R75 and from the examples of the rules dispatch to what they stand for (sanity). -/
def Obligations.SpecWordsDispatch : Prop :=
  dispatch 0x03E0 = .ok (.clearScreen 3) ∧ dispatch 0x00EE = .ok (.ret 0) ∧ dispatch 0x1200 = .ok (.jump 0x200) ∧
  dispatch 0x2210 = .ok (.call 0x210) ∧ dispatch 0x5121 = .ok (.skipEqReg 1 2 1) ∧
  dispatch 0x6005 = .ok (.setImm 0 5) ∧ dispatch 0x8014 = .ok (.addReg 0 1) ∧
  dispatch 0x8AB6 = .ok (.shiftRight 0xA 0xB) ∧ dispatch 0xD012 = .ok (.drawSprite 0 1 2) ∧
  dispatch 0xE29E = .ok (.skipKeyPressed 2) ∧ dispatch 0xFF65 = .ok (.regLoad 0xF) ∧
  dispatch 0x0000 = .error (.unknownOpcode 0x0000) ∧ dispatch 0x812F = .error (.unknownOpcode 0x812F)

/-! ### Memory (20_memory.md, 00_scope.md R11) -/

/-- Memory: a read answers the byte of the most recent write to the same address mod 4096, and a write changes no other
address and nothing else (R11, R53, R59). -/
def Obligations.ReadAfterWrite : Prop :=
  ∀ (s : State) (a b : Nat) (v : Byte), Memory.wf s.mem = true →
    (s.writeByte a v).readByte b = (if b % 4096 = a % 4096 then v else s.readByte b) ∧
      UnchangedBut [.mem] s (s.writeByte a v) ∧ Memory.wf (s.writeByte a v).mem = true

/-- R51, R53: the fetched word is big-endian, `w = (MemRead(pc, 1) << 8) | MemRead(pc + 1, 1)`, for any pc, even or odd, each
address mod 4096. -/
def Obligations.FetchIsBigEndian : Prop :=
  ∀ s : State,
    s.fetchWord.toNat =
      (s.readByte (s.pc.toNat % 4096)).toNat * 256 + (s.readByte ((s.pc.toNat + 1) % 4096)).toNat

/-- R62: "Instruction fetch is coherent with stores": a store-bcd to the address of the next instruction is what the next
fetch sees. -/
def Obligations.StoreIsFetched : Prop :=
  ∀ (x : Nibble) (s t : State), Memory.wf s.mem = true → s.I.toNat % 4096 = (s.pc.toNat + 2) % 4096 →
    exec (.storeBcd x) s = .next t →
    t.fetchWord.toNat = ((s.getV x).toNat / 100) * 256 + (s.getV x).toNat / 10 % 10

/-! ### The step (30_encoding.md R70, 60_exceptions.md) -/

/-- R70, R226: a step runs the instruction its fetched word dispatches to, then ticks; an unknown word faults, then the
step ticks; a halted step does neither. The status RUN stands before the instruction, where R70 writes it at the end:
DESIGN CHOICE (notes/assumptions/3.md). -/
def Obligations.StepRunsFetchedInstruction : Prop :=
  ∀ s : State,
    (s.fault = none → ∀ i t, dispatch (wordOfBytes (s.readByte s.pc.toNat) (s.readByte (s.pc.toNat + 1))) = .ok i →
      exec i { s with status := .run } = .next t → step s = .next t.tick) ∧
    (s.fault = none → ∀ w, dispatch (wordOfBytes (s.readByte s.pc.toNat) (s.readByte (s.pc.toNat + 1))) =
      .error (.unknownOpcode w) → step s = .next (s.raise .unknownOpcode).tick) ∧
    (∀ f, s.fault = some f → step s = .next { s with soundEdge := false, status := f.kind.haltStatus })

/-- R272: every instruction, wait, fault and halted no-op is one step: from every state a step answers a next state. -/
def Obligations.EveryStepAnswersNext : Prop :=
  ∀ s : State, ∃ t, step s = .next t

/-- R230: every step that is not halted ends with one tick, whatever the instruction did: both timers count down by one while
above 0 and hold at 0, soundEdge says whether ST was 1, nothing else changes; no port but reset and step writes a timer. -/
def Obligations.StepEndsWithTick : Prop :=
  (∀ s t : State, s.fault = none → step s = .next t →
    ∃ u, BeforeTick s u ∧ t.dt.toNat = u.dt.toNat - 1 ∧ t.st.toNat = u.st.toNat - 1 ∧
      (t.soundEdge = true ↔ u.st = 1) ∧ UnchangedBut [.delay, .sound, .soundEdge] u t) ∧
  (∀ op s s' reply, op ≠ .reset → op ≠ .step → transact op s = .next (reply, s') → s'.dt = s.dt ∧ s'.st = s.st)

/-- R231: soundEdge is 1 after a step exactly when ST was 1 immediately before that step's tick, and 0 after every other
step, halted steps included; the host reads it at its port. -/
def Obligations.SoundEdgeIsOneToZero : Prop :=
  (∀ s t : State, step s = .next t →
    (t.soundEdge = true ↔ s.fault = none ∧ ∃ u, BeforeTick s u ∧ u.st = 1)) ∧
  (∀ s : State, transact .soundEdge s = .next (.bit s.soundEdge, s))

/-- R221: every step ends with a status: the halt code of the fault if there is one, WAIT_KEY when wait-key found no key,
else RUN; the values are 0 to 4 and the host reads the status as the step's reply and at its port. -/
def Obligations.StatusReportsOutcome : Prop :=
  (∀ s t : State, step s = .next t →
    (∀ f, t.fault = some f → t.status = f.kind.haltStatus) ∧
    (t.fault = none → (∃ x, dispatch s.fetchWord = .ok (.waitKey x)) → s.keypad = 0 →
      t.status = .waitKey ∧ t.pc = s.pc) ∧
    (t.fault = none → ¬((∃ x, dispatch s.fetchWord = .ok (.waitKey x)) ∧ s.keypad = 0) → t.status = .run)) ∧
  (Status.run.code = 0 ∧ Status.waitKey.code = 1 ∧ FaultKind.unknownOpcode.haltStatus.code = 2 ∧
    FaultKind.stackOverflow.haltStatus.code = 3 ∧ FaultKind.stackUnderflow.haltStatus.code = 4) ∧
  (∀ s t : State, step s = .next t → transact .step s = .next (.status t.status, t)) ∧
  (∀ s : State, transact .statusOut s = .next (.status s.status, s))

/-- R222: the causes of a fault, exactly: UnknownOpcode when the fetched word matches no row, StackOverflow when it is call
and sp = 16, StackUnderflow when it is return and sp = 0. -/
def Obligations.FaultCausesAreExact : Prop :=
  ∀ s t : State, s.fault = none → step s = .next t → ∀ k : FaultKind,
    (t.fault = some ⟨k, s.pc, s.fetchWord⟩ ↔
      match k with
      | .unknownOpcode => unknownWord s.fetchWord = true
      | .stackOverflow => (∃ nnn, dispatch s.fetchWord = .ok (.call nnn)) ∧ s.sp.val = 16
      | .stackUnderflow => (∃ n, dispatch s.fetchWord = .ok (.ret n)) ∧ s.sp.val = 0)

/-- R223, R224: a fault is precise: the record is (kind, pc, w), the status is the kind's halt code, the tick runs, and pc,
V, I, mem, stack, sp, fb, redraw and the inputs are unchanged. The host reads the record at its port, fault_out. -/
def Obligations.FaultsArePrecise : Prop :=
  (∀ s t : State, s.fault = none → step s = .next t → ∀ f, t.fault = some f →
    f.pc = s.pc ∧ f.word = s.fetchWord ∧ t.status = f.kind.haltStatus ∧
      t.dt.toNat = s.dt.toNat - 1 ∧ t.st.toNat = s.st.toNat - 1 ∧ (t.soundEdge = true ↔ s.st = 1) ∧
      UnchangedBut [.delay, .sound, .soundEdge, .status, .fault] s t) ∧
  (∀ s : State, transact .faultOut s = .next (.fault s.fault, s))

/-- R225: while `fault ≠ none` every step is a no-op that sets soundEdge to 0 and reports the halt code again, for any number
of steps, and no transaction but reset clears the fault. -/
def Obligations.HaltedBlockIsFrozen : Prop :=
  (∀ (n : Nat) (s : State) (f : FaultRecord), s.fault = some f →
    core.run (n + 1) s = .next { s with soundEdge := false, status := f.kind.haltStatus }) ∧
  (∀ op (s s' : State) reply, s.fault ≠ none → op ≠ .reset → transact op s = .next (reply, s') → s'.fault = s.fault)

/-! ### Reset (70_reset_and_hazards.md) -/

/-- R260: every element's value after reset, from any state. Memory reads FONT at 0x000–0x04F, whose bytes are the model's
parameter (notes/assumptions/1.md), and 0 elsewhere. The random source is no state of the block, and that reset keeps it is the
model's choice (notes/assumptions/2.md). -/
def Obligations.ResetState : Prop :=
  ∀ s : State, ∃ t, transact .reset s = .next (.done, t) ∧
    (∀ a, a < 80 → t.readByte a = fontByte a) ∧ (∀ a, 80 ≤ a → a < 4096 → t.readByte a = 0) ∧
    (∀ r, t.getV r = 0) ∧ t.I = 0 ∧ t.pc = 0x200 ∧ (∀ k : Fin 16, t.stack[k] = 0) ∧ t.sp.val = 0 ∧ t.dt = 0 ∧
    t.st = 0 ∧ (∀ k, t.pixel k = false) ∧ t.redraw = false ∧ (∀ k, t.keypad.getLsbD k = false) ∧
    t.soundEdge = false ∧ t.status = .run ∧ t.fault = none ∧
    UnchangedBut [.rand] State.reset t ∧ t.randIn = s.randIn ∧ t.draws = s.draws

/-- R261: a reset request is reset followed by load; reset alone leaves 0x200–0xFFF zero, and executing that fetches 0x0000,
an unknown opcode, and halts at the first step. -/
def Obligations.ResetAloneHalts : Prop :=
  (∀ (s : State) image, s.resetRequest image = s.portReset.load image) ∧
  (∀ s : State, (∀ a, 0x200 ≤ a → a < 0x1000 → s.portReset.readByte a = 0) ∧
    ∃ t, step s.portReset = .next t ∧ t.fault = some ⟨.unknownOpcode, 0x200, 0x0000⟩ ∧
      t.status = .haltUnknownOpcode)

/-- The invariant holds at reset. -/
def Obligations.InvariantAtReset : Prop := State.reset.Inv

/-- Every step keeps the invariant: canonical memory, a status that agrees with the fault, and ST at 0 after an edge. -/
def Obligations.StepKeepsInvariant : Prop :=
  ∀ s t : State, s.Inv → step s = .next t → t.Inv

/-- Every state the host can bring the block to, by resets, loads, key input, random input, redraw consumption and steps in any
order, meets the invariant (R242, R262). -/
def Obligations.ReachableStatesAreInvariant : Prop :=
  ∀ s : State, Reachable s → s.Inv

/-! ### Whole-machine rules (10_state.md) -/

/-- 10_state.md section 1: each element is written by the instructions the table names and by no other (R20, R24 to R26, R28 to
R30); draw-sprite writes VF of the registers only. The pc, which every instruction writes, is in `PcPolicies`. -/
def Obligations.ElementsHaveTheirWriters : Prop :=
  ∀ (i : Instr) (s t : State), exec i s = .next t →
    (i.mnemonic ∉ ["set-imm", "add-imm", "set-reg", "or", "and", "xor", "add-reg", "sub-reg", "shift-right", "subn", "shift-left",
      "rand", "draw-sprite", "get-delay", "wait-key", "reg-load"] → ∀ r, t.getV r = s.getV r) ∧
    (i.mnemonic = "draw-sprite" → ∀ r, r ≠ 0xF → t.getV r = s.getV r) ∧
    (i.mnemonic ∉ ["set-index", "add-index", "font-addr"] → t.I = s.I) ∧
    (i.mnemonic ∉ ["call", "return"] → t.stack = s.stack ∧ t.sp = s.sp ∧ t.fault = s.fault) ∧
    (i.mnemonic ∉ ["clear-screen", "draw-sprite"] → t.fb = s.fb ∧ t.redraw = s.redraw) ∧
    (i.mnemonic ∉ ["store-bcd", "reg-dump"] → ∀ a, t.readByte a = s.readByte a) ∧
    (i.mnemonic ≠ "set-delay" → t.dt = s.dt) ∧ (i.mnemonic ≠ "set-sound" → t.st = s.st) ∧
    (i.mnemonic ≠ "rand" → t.randIn = s.randIn ∧ t.draws = s.draws) ∧
    (i.mnemonic ∉ ["call", "return", "wait-key"] → t.status = s.status) ∧
    t.keypad = s.keypad ∧ t.soundEdge = s.soundEdge

/-- R21: only the six flag writers write VF as a flag, and then VF ends at 0 or 1 whatever the destination; every other
instruction writes VF only when X = 0xF names it as the destination. -/
def Obligations.VFIsFlagOrDestination : Prop :=
  ∀ (i : Instr) (s t : State), exec i s = .next t →
    (i.mnemonic ∈ ["add-reg", "sub-reg", "subn", "shift-right", "shift-left", "draw-sprite"] →
      t.getV 0xF = 0 ∨ t.getV 0xF = 1) ∧
    (i.mnemonic ∉ ["add-reg", "sub-reg", "subn", "shift-right", "shift-left", "draw-sprite"] →
      (i.mnemonic ∉ ["set-imm", "add-imm", "set-reg", "or", "and", "xor", "rand", "get-delay", "wait-key", "reg-load"] ∨
        fieldX (encode i) ≠ 0xF) →
      t.getV 0xF = s.getV 0xF)

/-- R100: the pc policy of every instruction: "+2", conditional, set by op, or unchanged on a wait or a fault. -/
def Obligations.PcPolicies : Prop :=
  ∀ (i : Instr) (s t : State), exec i s = .next t →
    (i.mnemonic ∉ ["return", "jump", "call", "jump-offset", "skip-eq-imm", "skip-neq-imm", "skip-eq-reg", "skip-neq-reg",
      "skip-key-pressed", "skip-key-not-pressed", "wait-key"] → t.pc = s.pc + 2) ∧
    (i.mnemonic ∈ ["skip-eq-imm", "skip-neq-imm", "skip-eq-reg", "skip-neq-reg", "skip-key-pressed",
      "skip-key-not-pressed"] → t.pc = s.pc + 4 ∨ t.pc = s.pc + 2) ∧
    (i.mnemonic = "wait-key" → t.pc = if s.keypad = 0 then s.pc else s.pc + 2) ∧
    (t.fault ≠ s.fault → t.pc = s.pc)

/-- R34: no instruction reads redraw, soundEdge, status or fault: two states that differ in nothing else go to two states that
differ in nothing else. -/
def Obligations.HostOutputsAreNotRead : Prop :=
  ∀ (i : Instr) (s t : State) (r e : Bool) (q : Status) (f : Option FaultRecord), exec i s = .next t →
    ∃ r' e' q' f', exec i { s with redraw := r, soundEdge := e, status := q, fault := f } =
      .next { t with redraw := r', soundEdge := e', status := q', fault := f' }

/-! ### Control flow (40_control_flow.md) -/

/-- R102: jump sets pc to NNN and changes nothing else. -/
def Obligations.JumpSetsPc : Prop :=
  Selects 0xF000 0x1000 (fun w => .jump (fieldNNN w)) ∧
  ∀ nnn s, ∃ t, exec (.jump nnn) s = .next t ∧ t.pc.toNat = nnn.toNat ∧ UnchangedBut [.pc] s t

/-- R110: jump-offset sets pc to NNN + V0, at most 0x10FE, not reduced to 12 bits; the register is always V0. -/
def Obligations.JumpOffsetAddsV0 : Prop :=
  Selects 0xF000 0xB000 (fun w => .jumpOffset (fieldNNN w)) ∧
  ∀ nnn s, ∃ t, exec (.jumpOffset nnn) s = .next t ∧ t.pc.toNat = nnn.toNat + (s.getV 0).toNat ∧
    UnchangedBut [.pc] s t

/-- R104: call pushes the address of the call word and jumps to NNN; with sp = 16 it raises StackOverflow and changes nothing
of its own. -/
def Obligations.CallPushesOrOverflows : Prop :=
  Selects 0xF000 0x2000 (fun w => .call (fieldNNN w)) ∧
  (∀ nnn (s : State), s.sp.val < 16 → ∃ t, exec (.call nnn) s = .next t ∧ t.pc.toNat = nnn.toNat ∧
    t.sp.val = s.sp.val + 1 ∧ (∀ k : Fin 16, t.stack[k] = if k.val = s.sp.val then s.pc else s.stack[k]) ∧
    UnchangedBut [.pc, .stack] s t) ∧
  (∀ nnn (s : State), s.sp.val = 16 → ∃ t, exec (.call nnn) s = .next t ∧
    t.fault = some ⟨.stackOverflow, s.pc, s.fetchWord⟩ ∧ t.status = .haltStackOverflow ∧
    UnchangedBut [.status, .fault] s t)

/-- R101: return pops the top entry, which keeps its value, and sets pc to it plus 2; with sp = 0 it raises StackUnderflow and
changes nothing of its own. -/
def Obligations.ReturnPopsOrUnderflows : Prop :=
  Selects 0xF0FF 0x00EE (fun w => .ret (fieldX w)) ∧
  (∀ n (s : State) (k : Fin 16), s.sp.val = k.val + 1 → ∃ t, exec (.ret n) s = .next t ∧
    t.pc.toNat = (s.stack[k].toNat + 2) % 2 ^ 16 ∧ t.sp.val = k.val ∧ t.stack = s.stack ∧
    UnchangedBut [.pc, .stack] s t) ∧
  (∀ n (s : State), s.sp.val = 0 → ∃ t, exec (.ret n) s = .next t ∧
    t.fault = some ⟨.stackUnderflow, s.pc, s.fetchWord⟩ ∧ t.status = .haltStackUnderflow ∧
    UnchangedBut [.status, .fault] s t)

/-- R103: "return adds 2 to the popped value to resume after the call": a return reached with the call's stack entry in place, whatever
else happened between, goes to the word after the call and to the stack pointer before it. -/
def Obligations.ReturnResumesAfterCall : Prop :=
  ∀ nnn n (s t t' u : State) (h : s.sp.val < 16), exec (.call nnn) s = .next t →
    t'.sp = t.sp → t'.stack[s.sp.val] = t.stack[s.sp.val] → exec (.ret n) t' = .next u →
    u.pc = s.pc + 2 ∧ u.sp = s.sp

/-- R106, R107: skip-eq-imm and skip-neq-imm add 4 to pc when Vx equals, or does not equal, NN, else 2, mod 2^16, and change
nothing else. -/
def Obligations.SkipsOnImmediate : Prop :=
  Selects 0xF000 0x3000 (fun w => .skipEqImm (fieldX w) (fieldNN w)) ∧
  Selects 0xF000 0x4000 (fun w => .skipNeqImm (fieldX w) (fieldNN w)) ∧
  (∀ x nn (s : State), ∃ t, exec (.skipEqImm x nn) s = .next t ∧
    t.pc.toNat = (s.pc.toNat + if s.getV x = nn then 4 else 2) % 2 ^ 16 ∧ UnchangedBut [.pc] s t) ∧
  (∀ x nn (s : State), ∃ t, exec (.skipNeqImm x nn) s = .next t ∧
    t.pc.toNat = (s.pc.toNat + if s.getV x ≠ nn then 4 else 2) % 2 ^ 16 ∧ UnchangedBut [.pc] s t)

/-- R108, R109: skip-eq-reg and skip-neq-reg compare Vx with Vy; the low nibble is ignored. -/
def Obligations.SkipsOnRegister : Prop :=
  Selects 0xF000 0x5000 (fun w => .skipEqReg (fieldX w) (fieldY w) (fieldN w)) ∧
  Selects 0xF000 0x9000 (fun w => .skipNeqReg (fieldX w) (fieldY w) (fieldN w)) ∧
  (∀ x y n (s : State), ∃ t, exec (.skipEqReg x y n) s = .next t ∧
    t.pc.toNat = (s.pc.toNat + if s.getV x = s.getV y then 4 else 2) % 2 ^ 16 ∧ UnchangedBut [.pc] s t) ∧
  (∀ x y n (s : State), ∃ t, exec (.skipNeqReg x y n) s = .next t ∧
    t.pc.toNat = (s.pc.toNat + if s.getV x ≠ s.getV y then 4 else 2) % 2 ^ 16 ∧ UnchangedBut [.pc] s t)

/-! ### ALU (41_alu.md) -/

/-- R133, R134, R135: set-imm, add-imm and set-reg write Vx and pc only: NN, `(Vx + NN) mod 256`, Vy. -/
def Obligations.MovesAndAddImmediate : Prop :=
  Selects 0xF000 0x6000 (fun w => .setImm (fieldX w) (fieldNN w)) ∧
  Selects 0xF000 0x7000 (fun w => .addImm (fieldX w) (fieldNN w)) ∧
  Selects 0xF00F 0x8000 (fun w => .setReg (fieldX w) (fieldY w)) ∧
  (∀ x nn (s : State), ∃ t, exec (.setImm x nn) s = .next t ∧ t.pc = s.pc + 2 ∧ t.getV x = nn ∧
    (∀ r, r ≠ x → t.getV r = s.getV r) ∧ UnchangedBut [.regs, .pc] s t) ∧
  (∀ x nn (s : State), ∃ t, exec (.addImm x nn) s = .next t ∧ t.pc = s.pc + 2 ∧
    (t.getV x).toNat = ((s.getV x).toNat + nn.toNat) % 256 ∧
    (∀ r, r ≠ x → t.getV r = s.getV r) ∧ UnchangedBut [.regs, .pc] s t) ∧
  (∀ x y (s : State), ∃ t, exec (.setReg x y) s = .next t ∧ t.pc = s.pc + 2 ∧ t.getV x = s.getV y ∧
    (∀ r, r ≠ x → t.getV r = s.getV r) ∧ UnchangedBut [.regs, .pc] s t)

/-- R136, R137, R138: or, and and xor combine Vx and Vy bit by bit into Vx and write nothing else but pc, VF included. -/
def Obligations.LogicIsBitwise : Prop :=
  Selects 0xF00F 0x8001 (fun w => .orReg (fieldX w) (fieldY w)) ∧
  Selects 0xF00F 0x8002 (fun w => .andReg (fieldX w) (fieldY w)) ∧
  Selects 0xF00F 0x8003 (fun w => .xorReg (fieldX w) (fieldY w)) ∧
  (∀ x y (s : State), ∃ t, exec (.orReg x y) s = .next t ∧ t.pc = s.pc + 2 ∧
    (∀ k, (t.getV x).getLsbD k = ((s.getV x).getLsbD k || (s.getV y).getLsbD k)) ∧
    (∀ r, r ≠ x → t.getV r = s.getV r) ∧ UnchangedBut [.regs, .pc] s t) ∧
  (∀ x y (s : State), ∃ t, exec (.andReg x y) s = .next t ∧ t.pc = s.pc + 2 ∧
    (∀ k, (t.getV x).getLsbD k = ((s.getV x).getLsbD k && (s.getV y).getLsbD k)) ∧
    (∀ r, r ≠ x → t.getV r = s.getV r) ∧ UnchangedBut [.regs, .pc] s t) ∧
  (∀ x y (s : State), ∃ t, exec (.xorReg x y) s = .next t ∧ t.pc = s.pc + 2 ∧
    (∀ k, (t.getV x).getLsbD k = ((s.getV x).getLsbD k ^^ (s.getV y).getLsbD k)) ∧
    (∀ r, r ≠ x → t.getV r = s.getV r) ∧ UnchangedBut [.regs, .pc] s t)

/-- R139: add-reg writes the sum mod 256 to Vx, then VF = 1 iff `Vx + Vy > 255`, equivalently `Vy > 255 - Vx`, else 0; with
X = 0xF VF ends as the carry. -/
def Obligations.AddRegSumAndCarry : Prop :=
  Selects 0xF00F 0x8004 (fun w => .addReg (fieldX w) (fieldY w)) ∧
  ∀ x y (s : State), ∃ t, exec (.addReg x y) s = .next t ∧ t.pc = s.pc + 2 ∧
    (x ≠ 0xF → (t.getV x).toNat = ((s.getV x).toNat + (s.getV y).toNat) % 256) ∧
    (t.getV 0xF).toNat = (if (s.getV x).toNat + (s.getV y).toNat > 255 then 1 else 0) ∧
    (t.getV 0xF).toNat = (if (s.getV y).toNat > 255 - (s.getV x).toNat then 1 else 0) ∧
    (∀ r, r ≠ x → r ≠ 0xF → t.getV r = s.getV r) ∧ UnchangedBut [.regs, .pc] s t

/-- R140: sub-reg writes `(Vx - Vy) mod 256` to Vx, then VF = 0 if Vy > Vx, else 1. -/
def Obligations.SubRegDifferenceAndNoBorrow : Prop :=
  Selects 0xF00F 0x8005 (fun w => .subReg (fieldX w) (fieldY w)) ∧
  ∀ x y (s : State), ∃ t, exec (.subReg x y) s = .next t ∧ t.pc = s.pc + 2 ∧
    (x ≠ 0xF → ((t.getV x).toNat : Int) = ((s.getV x).toNat - (s.getV y).toNat : Int) % 256) ∧
    (t.getV 0xF).toNat = (if (s.getV y).toNat > (s.getV x).toNat then 0 else 1) ∧
    (∀ r, r ≠ x → r ≠ 0xF → t.getV r = s.getV r) ∧ UnchangedBut [.regs, .pc] s t

/-- R142: subn writes `(Vy - Vx) mod 256` to Vx, then VF = 0 if Vx > Vy, else 1. -/
def Obligations.SubnDifferenceAndNoBorrow : Prop :=
  Selects 0xF00F 0x8007 (fun w => .subn (fieldX w) (fieldY w)) ∧
  ∀ x y (s : State), ∃ t, exec (.subn x y) s = .next t ∧ t.pc = s.pc + 2 ∧
    (x ≠ 0xF → ((t.getV x).toNat : Int) = ((s.getV y).toNat - (s.getV x).toNat : Int) % 256) ∧
    (t.getV 0xF).toNat = (if (s.getV x).toNat > (s.getV y).toNat then 0 else 1) ∧
    (∀ r, r ≠ x → r ≠ 0xF → t.getV r = s.getV r) ∧ UnchangedBut [.regs, .pc] s t

/-- R141, R143: the shifts move Vx by one bit, fill with 0, and end with VF the bit shifted out; Y is ignored. -/
def Obligations.ShiftsAndBitOut : Prop :=
  Selects 0xF00F 0x8006 (fun w => .shiftRight (fieldX w) (fieldY w)) ∧
  Selects 0xF00F 0x800E (fun w => .shiftLeft (fieldX w) (fieldY w)) ∧
  (∀ x n (s : State), ∃ t, exec (.shiftRight x n) s = .next t ∧ t.pc = s.pc + 2 ∧
    (x ≠ 0xF → (t.getV x).toNat = (s.getV x).toNat / 2) ∧ (t.getV 0xF).toNat = (s.getV x).toNat % 2 ∧
    (∀ r, r ≠ x → r ≠ 0xF → t.getV r = s.getV r) ∧ UnchangedBut [.regs, .pc] s t) ∧
  (∀ x n (s : State), ∃ t, exec (.shiftLeft x n) s = .next t ∧ t.pc = s.pc + 2 ∧
    (x ≠ 0xF → (t.getV x).toNat = (s.getV x).toNat * 2 % 256) ∧ (t.getV 0xF).toNat = (s.getV x).toNat / 128 ∧
    (∀ r, r ≠ x → r ≠ 0xF → t.getV r = s.getV r) ∧ UnchangedBut [.regs, .pc] s t)

/-- R150: rand takes one draw r and writes `r & NN` to Vx and nothing else but pc. Where the draw comes from, the next byte the host
put on rand_in, else a free value, is the model's choice (notes/assumptions/2.md); the port rand_in puts its bytes after those that
stand there and changes nothing else. -/
def Obligations.RandMasksADraw : Prop :=
  Selects 0xF000 0xC000 (fun w => .rand (fieldX w) (fieldNN w)) ∧
  (∀ x nn (s : State), ∃ r t, exec (.rand x nn) s = .next t ∧ t.pc = s.pc + 2 ∧ t.getV x = r &&& nn ∧
    t.draws = s.draws + 1 ∧ (∀ b rest, s.randIn = b :: rest → r = b ∧ t.randIn = rest) ∧
    (s.randIn = [] → t.randIn = []) ∧
    (∀ y, y ≠ x → t.getV y = s.getV y) ∧ UnchangedBut [.regs, .pc, .rand] s t) ∧
  (∀ (s : State) bytes, ∃ t, transact (.randIn bytes) s = .next (.done, t) ∧ t.randIn = s.randIn ++ bytes ∧
    t.draws = s.draws ∧ UnchangedBut [.rand] s t)

/-! ### Index register and memory transfer (42_index_memory.md) -/

/-- R160, R161, R162: set-index, add-index and font-addr write I and pc only: NNN, `(I + Vx) mod 2^16`, `5 * Vx`. -/
def Obligations.IndexRegisterWrites : Prop :=
  Selects 0xF000 0xA000 (fun w => .setIndex (fieldNNN w)) ∧
  Selects 0xF0FF 0xF01E (fun w => .addIndex (fieldX w)) ∧
  Selects 0xF0FF 0xF029 (fun w => .fontAddr (fieldX w)) ∧
  (∀ nnn (s : State), ∃ t, exec (.setIndex nnn) s = .next t ∧ t.pc = s.pc + 2 ∧ t.I.toNat = nnn.toNat ∧
    UnchangedBut [.index, .pc] s t) ∧
  (∀ x (s : State), ∃ t, exec (.addIndex x) s = .next t ∧ t.pc = s.pc + 2 ∧
    t.I.toNat = (s.I.toNat + (s.getV x).toNat) % 2 ^ 16 ∧ UnchangedBut [.index, .pc] s t) ∧
  (∀ x (s : State), ∃ t, exec (.fontAddr x) s = .next t ∧ t.pc = s.pc + 2 ∧ t.I.toNat = 5 * (s.getV x).toNat ∧
    UnchangedBut [.index, .pc] s t)

/-- R163: store-bcd writes `v / 100`, `(v / 10) % 10` and `v % 10` at I, I + 1 and I + 2, each address mod 4096, and nothing
else but pc. -/
def Obligations.StoreBcdWritesDigits : Prop :=
  Selects 0xF0FF 0xF033 (fun w => .storeBcd (fieldX w)) ∧
  ∀ x (s : State), Memory.wf s.mem = true → ∃ t, exec (.storeBcd x) s = .next t ∧ t.pc = s.pc + 2 ∧
    (t.readByte (s.I.toNat + 0)).toNat = (s.getV x).toNat / 100 ∧
    (t.readByte (s.I.toNat + 1)).toNat = (s.getV x).toNat / 10 % 10 ∧
    (t.readByte (s.I.toNat + 2)).toNat = (s.getV x).toNat % 10 ∧
    (∀ a, a % 4096 ≠ (s.I.toNat + 0) % 4096 → a % 4096 ≠ (s.I.toNat + 1) % 4096 →
      a % 4096 ≠ (s.I.toNat + 2) % 4096 → t.readByte a = s.readByte a) ∧
    UnchangedBut [.mem, .pc] s t

/-- R164: the digits h, t, u that store-bcd writes are each at most 9, h is at most 2, and `100h + 10t + u = v`. -/
def Obligations.BcdDigitsDenoteValue : Prop :=
  ∀ x (s t : State), Memory.wf s.mem = true → exec (.storeBcd x) s = .next t →
    (t.readByte s.I.toNat).toNat ≤ 2 ∧ (t.readByte (s.I.toNat + 1)).toNat ≤ 9 ∧
    (t.readByte (s.I.toNat + 2)).toNat ≤ 9 ∧
    100 * (t.readByte s.I.toNat).toNat + 10 * (t.readByte (s.I.toNat + 1)).toNat +
      (t.readByte (s.I.toNat + 2)).toNat = (s.getV x).toNat

/-- R165: reg-dump stores V0 to VX at I, I + 1, …, I + X, each address mod 4096, and nothing else but pc changes. -/
def Obligations.RegDumpStoresRegisters : Prop :=
  Selects 0xF0FF 0xF055 (fun w => .regDump (fieldX w)) ∧
  ∀ x (s : State), Memory.wf s.mem = true → ∃ t, exec (.regDump x) s = .next t ∧ t.pc = s.pc + 2 ∧
    (∀ i : Nibble, i.toNat ≤ x.toNat → t.readByte (s.I.toNat + i.toNat) = s.getV i) ∧
    (∀ a, (∀ i : Nibble, i.toNat ≤ x.toNat → a % 4096 ≠ (s.I.toNat + i.toNat) % 4096) →
      t.readByte a = s.readByte a) ∧
    UnchangedBut [.mem, .pc] s t

/-- R166: reg-load loads V0 to VX from I, I + 1, …, I + X, each address mod 4096, and nothing else but pc changes. -/
def Obligations.RegLoadLoadsRegisters : Prop :=
  Selects 0xF0FF 0xF065 (fun w => .regLoad (fieldX w)) ∧
  ∀ x (s : State), ∃ t, exec (.regLoad x) s = .next t ∧ t.pc = s.pc + 2 ∧
    (∀ i : Nibble, i.toNat ≤ x.toNat → t.getV i = s.readByte ((s.I.toNat + i.toNat) % 4096)) ∧
    (∀ i : Nibble, x.toNat < i.toNat → t.getV i = s.getV i) ∧ UnchangedBut [.regs, .pc] s t

/-- R167: reg-dump, then reg-load with the same I and X, restores V0 to VX and leaves I unchanged, if nothing between them writes
`mem[I..I+X]` or I. -/
def Obligations.DumpThenLoadRestores : Prop :=
  ∀ x (s t t' u : State), Memory.wf s.mem = true → exec (.regDump x) s = .next t → t'.I = t.I →
    (∀ i : Nibble, i.toNat ≤ x.toNat → t'.readByte (t.I.toNat + i.toNat) = t.readByte (t.I.toNat + i.toNat)) →
    exec (.regLoad x) t' = .next u →
    (∀ i : Nibble, i.toNat ≤ x.toNat → u.getV i = s.getV i) ∧ u.I = s.I

/-! ### Display (43_display.md) -/

/-- R180: clear-screen clears all 2048 pixels, sets redraw and writes nothing else but pc. -/
def Obligations.ClearScreenClears : Prop :=
  Selects 0xF0FF 0x00E0 (fun w => .clearScreen (fieldX w)) ∧
  ∀ n (s : State), ∃ t, exec (.clearScreen n) s = .next t ∧ t.pc = s.pc + 2 ∧ (∀ k, t.pixel k = false) ∧
    t.redraw = true ∧ UnchangedBut [.fb, .redraw, .pc] s t

/-- R182 with R181: draw-sprite toggles exactly the pixels its set sprite bits hit, leaves every other pixel, sets redraw, and ends
with VF = 1 if a hit pixel was set before the draw, else 0; nothing else but pc changes. -/
def Obligations.DrawSpriteTogglesHits : Prop :=
  Selects 0xF000 0xD000 (fun w => .drawSprite (fieldX w) (fieldY w) (fieldN w)) ∧
  ∀ x y n (s : State), ∃ t, exec (.drawSprite x y n) s = .next t ∧ t.pc = s.pc + 2 ∧ t.redraw = true ∧
    (∀ k < 2048, s.SpriteHits (s.getV x) (s.getV y) n.toNat k → t.pixel k = !s.pixel k) ∧
    (∀ k < 2048, ¬s.SpriteHits (s.getV x) (s.getV y) n.toNat k → t.pixel k = s.pixel k) ∧
    ((∃ k, s.SpriteHits (s.getV x) (s.getV y) n.toNat k ∧ s.pixel k = true) → t.getV 0xF = 1) ∧
    ((¬∃ k, s.SpriteHits (s.getV x) (s.getV y) n.toNat k ∧ s.pixel k = true) → t.getV 0xF = 0) ∧
    (∀ r, r ≠ 0xF → t.getV r = s.getV r) ∧ UnchangedBut [.fb, .redraw, .regs, .pc] s t

/-- R184: drawing the same sprite twice, X and Y not 0xF, with nothing between that changes the framebuffer, the sprite bytes, I, Vx
or Vy, restores the framebuffer, and the second draw gives VF = 1 iff a touched pixel was 0 before the first. -/
def Obligations.DrawTwiceRestores : Prop :=
  ∀ x y n (s t t' u : State), x ≠ 0xF → y ≠ 0xF → exec (.drawSprite x y n) s = .next t →
    t'.fb = t.fb → t'.I = t.I → t'.getV x = t.getV x → t'.getV y = t.getV y →
    (∀ r < n.toNat, t'.readByte (t.I.toNat + r) = t.readByte (t.I.toNat + r)) →
    exec (.drawSprite x y n) t' = .next u →
    u.fb = s.fb ∧
      (u.getV 0xF = 1 ↔ ∃ k, s.SpriteHits (s.getV x) (s.getV y) n.toNat k ∧ s.pixel k = false) ∧
      (u.getV 0xF = 0 ∨ u.getV 0xF = 1)

/-! ### Keypad and timers (44_keypad_timers.md) -/

/-- R200, R201, R202: the key skips test `keypad[Vx]` for Vx ≤ 15, and a key number of 16 or more is never down. -/
def Obligations.KeySkipsTestKeyDown : Prop :=
  Selects 0xF0FF 0xE09E (fun w => .skipKeyPressed (fieldX w)) ∧
  Selects 0xF0FF 0xE0A1 (fun w => .skipKeyNotPressed (fieldX w)) ∧
  (∀ x (s : State), ∃ t, exec (.skipKeyPressed x) s = .next t ∧
    t.pc.toNat = (s.pc.toNat + if (s.getV x).toNat ≤ 15 ∧ s.keypad.getLsbD (s.getV x).toNat = true then 4 else 2) % 2 ^ 16 ∧
    UnchangedBut [.pc] s t) ∧
  (∀ x (s : State), ∃ t, exec (.skipKeyNotPressed x) s = .next t ∧
    t.pc.toNat = (s.pc.toNat + if (s.getV x).toNat ≤ 15 ∧ s.keypad.getLsbD (s.getV x).toNat = true then 2 else 4) % 2 ^ 16 ∧
    UnchangedBut [.pc] s t)

/-- R205: wait-key takes the lowest key that is down into Vx and advances; with no key down pc and Vx are unchanged and the
status is WAIT_KEY. The step then ticks, and reports RUN when a key was found. -/
def Obligations.WaitKeyTakesLowestKey : Prop :=
  Selects 0xF0FF 0xF00A (fun w => .waitKey (fieldX w)) ∧
  (∀ x (s : State), ∀ k < 16, s.keypad.getLsbD k = true → (∀ j < k, s.keypad.getLsbD j = false) →
    ∃ t, exec (.waitKey x) s = .next t ∧ t.pc = s.pc + 2 ∧ (t.getV x).toNat = k ∧
      (∀ r, r ≠ x → t.getV r = s.getV r) ∧ UnchangedBut [.regs, .pc] s t) ∧
  (∀ x (s : State), (∀ k < 16, s.keypad.getLsbD k = false) →
    ∃ t, exec (.waitKey x) s = .next t ∧ t.status = .waitKey ∧ UnchangedBut [.status] s t) ∧
  (∀ x (s : State), s.fault = none → dispatch s.fetchWord = .ok (.waitKey x) →
    ∃ t, step s = .next t ∧ t.status = (if s.keypad = 0 then .waitKey else .run) ∧ t.dt.toNat = s.dt.toNat - 1 ∧
      t.st.toNat = s.st.toNat - 1)

/-- R206: with no host key input, a program waiting on wait-key waits forever: after any number of steps pc still addresses the
word, the timers have run down that far and stay at 0, and everything else but the sound edge and the status is as it was. -/
def Obligations.WaitLastsUntilAKey : Prop :=
  ∀ (n : Nat) x (s : State), s.fault = none → dispatch s.fetchWord = .ok (.waitKey x) → s.keypad = 0 →
    ∃ t, core.run (n + 1) s = .next t ∧ t.status = .waitKey ∧ t.dt.toNat = s.dt.toNat - (n + 1) ∧
      t.st.toNat = s.st.toNat - (n + 1) ∧ UnchangedBut [.delay, .sound, .soundEdge, .status] s t

/-- R203, R207, R208: get-delay writes DT to Vx, set-delay writes Vx to DT, set-sound writes Vx to ST, and nothing else
but pc; the step's tick follows, so a timer written with v ends the step at v - 1 for v ≥ 1 and at 0 for v = 0. -/
def Obligations.TimerTransfers : Prop :=
  Selects 0xF0FF 0xF007 (fun w => .getDelay (fieldX w)) ∧
  Selects 0xF0FF 0xF015 (fun w => .setDelay (fieldX w)) ∧
  Selects 0xF0FF 0xF018 (fun w => .setSound (fieldX w)) ∧
  (∀ x (s : State), ∃ t, exec (.getDelay x) s = .next t ∧ t.pc = s.pc + 2 ∧ t.getV x = s.dt ∧
    (∀ r, r ≠ x → t.getV r = s.getV r) ∧ UnchangedBut [.regs, .pc] s t) ∧
  (∀ x (s : State), ∃ t, exec (.setDelay x) s = .next t ∧ t.pc = s.pc + 2 ∧ t.dt = s.getV x ∧
    UnchangedBut [.delay, .pc] s t) ∧
  (∀ x (s : State), ∃ t, exec (.setSound x) s = .next t ∧ t.pc = s.pc + 2 ∧ t.st = s.getV x ∧
    UnchangedBut [.sound, .pc] s t) ∧
  (∀ x (s : State), s.fault = none →
    (dispatch s.fetchWord = .ok (.getDelay x) →
      ∃ t, step s = .next t ∧ t.getV x = s.dt ∧ t.dt.toNat = s.dt.toNat - 1) ∧
    (dispatch s.fetchWord = .ok (.setDelay x) → ∃ t, step s = .next t ∧ t.dt.toNat = (s.getV x).toNat - 1) ∧
    (dispatch s.fetchWord = .ok (.setSound x) →
      ∃ t, step s = .next t ∧ t.st.toNat = (s.getV x).toNat - 1 ∧ (t.soundEdge = true ↔ s.getV x = 1)))

/-! ### The host's ports (60_exceptions.md) -/

/-- R243: load copies an image of at most 3584 bytes to 0x200 upward and changes nothing else; a longer image is LoadError and
changes nothing. -/
def Obligations.LoadWritesTheImage : Prop :=
  ∀ (s : State) (bytes : List Byte), Memory.wf s.mem = true →
    (bytes.length > 3584 → transact (.load bytes) s = .next (.loadError .imageTooLong, s)) ∧
    (bytes.length ≤ 3584 → ∃ t, transact (.load bytes) s = .next (.done, t) ∧
      (∀ (j : Nat) (h : j < bytes.length), t.readByte (0x200 + j) = bytes[j]) ∧
      (∀ a < 4096, a < 0x200 ∨ 0x200 + bytes.length ≤ a → t.readByte a = s.readByte a) ∧
      UnchangedBut [.mem] s t)

/-- R244: key_in replaces the 16-element key-down vector wholesale, bit k being key k, and nothing else; the block never writes
the vector. -/
def Obligations.KeypadIsTheHosts : Prop :=
  (∀ (s : State) keys, ∃ t, transact (.keyIn keys) s = .next (.done, t) ∧
    (∀ k < 16, t.keypad.getLsbD k = keys.getLsbD k) ∧ UnchangedBut [.keypad] s t) ∧
  (∀ s t : State, step s = .next t → t.keypad = s.keypad)

/-- R245, R246: fb_out answers the 2048 pixels in order and changes nothing, the redraw flag included; redraw_consume answers the
redraw flag and clears it, and the next clear-screen or draw-sprite sets it again. -/
def Obligations.DisplayPorts : Prop :=
  (∀ s : State, ∃ p, transact .fbOut s = .next (.pixels p, s) ∧ p.length = 2048 ∧
    ∀ x < 64, ∀ y < 32, p[y * 64 + x]? = some ((s.fb.toList.getD y 0).getLsbD x)) ∧
  (∀ s : State, ∃ t, transact .redrawConsume s = .next (.bit s.redraw, t) ∧ t.redraw = false ∧
    UnchangedBut [.redraw] s t) ∧
  (∀ n (s t : State), exec (.clearScreen n) s = .next t → t.redraw = true) ∧
  (∀ x y n (s t : State), exec (.drawSprite x y n) s = .next t → t.redraw = true)

/-- Every transaction of the host keeps the invariant: from any state that meets it, each port leaves canonical memory, a status that
agrees with the fault, and ST at 0 after an edge (R240, R242). -/
def Obligations.TransactionsKeepInvariant : Prop :=
  ∀ (op : PortOp) (s s' : State) (reply : PortReply), s.Inv → transact op s = .next (reply, s') → s'.Inv
end

