-- ==== Sys2Proof/Laws/Decode.lean ====
section
/-!
SUPPORT. The fields of an assembled word and of a masked word, and a word as its fields (spec 30_encoding.md R73, R75).
-/
namespace Sys2Proof

/-! ### Assembled words as numbers -/

theorem toNat_wordNNN (f : Nibble) (nnn : Addr12) : (wordNNN f nnn).toNat = f.toNat * 4096 + nnn.toNat := by
  have h := nnn.isLt
  change (f ++ nnn : BitVec (4 + 12)).toNat = _
  rw [BitVec.toNat_append, ← Nat.shiftLeft_add_eq_or_of_lt h, Nat.shiftLeft_eq]

theorem toNat_wordXNN (f x : Nibble) (nn : Byte) :
    (wordXNN f x nn).toNat = f.toNat * 4096 + x.toNat * 256 + nn.toNat := by
  have h := nn.isLt
  have hx := x.isLt
  change (f ++ x ++ nn : BitVec (4 + 4 + 8)).toNat = _
  rw [BitVec.toNat_append, ← Nat.shiftLeft_add_eq_or_of_lt h, Nat.shiftLeft_eq, BitVec.toNat_append,
    ← Nat.shiftLeft_add_eq_or_of_lt hx, Nat.shiftLeft_eq]
  omega

theorem toNat_wordXYN (f x y n : Nibble) :
    (wordXYN f x y n).toNat = f.toNat * 4096 + x.toNat * 256 + y.toNat * 16 + n.toNat := by
  have h := n.isLt
  have hx := x.isLt
  have hy := y.isLt
  change (f ++ x ++ y ++ n : BitVec (4 + 4 + 4 + 4)).toNat = _
  rw [BitVec.toNat_append, ← Nat.shiftLeft_add_eq_or_of_lt h, Nat.shiftLeft_eq, BitVec.toNat_append,
    ← Nat.shiftLeft_add_eq_or_of_lt hy, Nat.shiftLeft_eq, BitVec.toNat_append,
    ← Nat.shiftLeft_add_eq_or_of_lt hx, Nat.shiftLeft_eq]
  omega

theorem toNat_wordOfBytes (hi lo : Byte) : (wordOfBytes hi lo).toNat = hi.toNat * 256 + lo.toNat := by
  have h := lo.isLt
  change (hi ++ lo : BitVec (8 + 8)).toNat = _
  rw [BitVec.toNat_append, ← Nat.shiftLeft_add_eq_or_of_lt h, Nat.shiftLeft_eq]

/-! ### Fields as numbers -/

theorem toNat_family (w : Word) : (family w).toNat = w.toNat / 4096 := by
  have := w.isLt
  rw [family, BitVec.extractLsb'_toNat, Nat.shiftRight_eq_div_pow]
  omega

theorem toNat_fieldX (w : Word) : (fieldX w).toNat = w.toNat / 256 % 16 := by
  rw [fieldX, BitVec.extractLsb'_toNat, Nat.shiftRight_eq_div_pow]

theorem toNat_fieldY (w : Word) : (fieldY w).toNat = w.toNat / 16 % 16 := by
  rw [fieldY, BitVec.extractLsb'_toNat, Nat.shiftRight_eq_div_pow]

theorem toNat_fieldN (w : Word) : (fieldN w).toNat = w.toNat % 16 := by
  rw [fieldN, BitVec.extractLsb'_toNat, Nat.shiftRight_zero]

theorem toNat_fieldNN (w : Word) : (fieldNN w).toNat = w.toNat % 256 := by
  rw [fieldNN, BitVec.extractLsb'_toNat, Nat.shiftRight_zero]

theorem toNat_fieldNNN (w : Word) : (fieldNNN w).toNat = w.toNat % 4096 := by
  rw [fieldNNN, BitVec.extractLsb'_toNat, Nat.shiftRight_zero]

theorem toNat_highByte (w : Word) : (highByte w).toNat = w.toNat / 256 := by
  have := w.isLt
  rw [highByte, BitVec.extractLsb'_toNat, Nat.shiftRight_eq_div_pow]
  omega

theorem toNat_lowByte (w : Word) : (lowByte w).toNat = w.toNat % 256 := by
  rw [lowByte, BitVec.extractLsb'_toNat, Nat.shiftRight_zero]

/-! ### The fields of an assembled word -/

theorem family_wordNNN (f : Nibble) (nnn : Addr12) : family (wordNNN f nnn) = f := by
  have := nnn.isLt
  apply BitVec.eq_of_toNat_eq; rw [toNat_family, toNat_wordNNN]; omega

theorem fieldNNN_wordNNN (f : Nibble) (nnn : Addr12) : fieldNNN (wordNNN f nnn) = nnn := by
  have := nnn.isLt
  apply BitVec.eq_of_toNat_eq; rw [toNat_fieldNNN, toNat_wordNNN]; omega

theorem family_wordXNN (f x : Nibble) (nn : Byte) : family (wordXNN f x nn) = f := by
  have := nn.isLt
  have := x.isLt
  apply BitVec.eq_of_toNat_eq; rw [toNat_family, toNat_wordXNN]; omega

theorem fieldX_wordXNN (f x : Nibble) (nn : Byte) : fieldX (wordXNN f x nn) = x := by
  have := nn.isLt
  have := x.isLt
  apply BitVec.eq_of_toNat_eq; rw [toNat_fieldX, toNat_wordXNN]; omega

theorem fieldNN_wordXNN (f x : Nibble) (nn : Byte) : fieldNN (wordXNN f x nn) = nn := by
  have := nn.isLt
  apply BitVec.eq_of_toNat_eq; rw [toNat_fieldNN, toNat_wordXNN]; omega

theorem fieldN_wordXNN (f x : Nibble) (nn : Byte) : fieldN (wordXNN f x nn) = nn.extractLsb' 0 4 := by
  have := nn.isLt
  apply BitVec.eq_of_toNat_eq
  rw [toNat_fieldN, toNat_wordXNN, BitVec.extractLsb'_toNat, Nat.shiftRight_zero]; omega

theorem family_wordXYN (f x y n : Nibble) : family (wordXYN f x y n) = f := by
  have := x.isLt
  have := y.isLt
  have := n.isLt
  apply BitVec.eq_of_toNat_eq; rw [toNat_family, toNat_wordXYN]; omega

theorem fieldX_wordXYN (f x y n : Nibble) : fieldX (wordXYN f x y n) = x := by
  have := x.isLt
  have := y.isLt
  have := n.isLt
  apply BitVec.eq_of_toNat_eq; rw [toNat_fieldX, toNat_wordXYN]; omega

theorem fieldY_wordXYN (f x y n : Nibble) : fieldY (wordXYN f x y n) = y := by
  have := y.isLt
  have := n.isLt
  apply BitVec.eq_of_toNat_eq; rw [toNat_fieldY, toNat_wordXYN]; omega

theorem fieldN_wordXYN (f x y n : Nibble) : fieldN (wordXYN f x y n) = n := by
  have := n.isLt
  apply BitVec.eq_of_toNat_eq; rw [toNat_fieldN, toNat_wordXYN]; omega

/-! ### A word is its fields -/

theorem wordNNN_fields (w : Word) : wordNNN (family w) (fieldNNN w) = w := by
  have := w.isLt
  apply BitVec.eq_of_toNat_eq; rw [toNat_wordNNN, toNat_family, toNat_fieldNNN]; omega

theorem wordXNN_fields (w : Word) : wordXNN (family w) (fieldX w) (fieldNN w) = w := by
  have := w.isLt
  apply BitVec.eq_of_toNat_eq; rw [toNat_wordXNN, toNat_family, toNat_fieldX, toNat_fieldNN]; omega

theorem wordXYN_fields (w : Word) : wordXYN (family w) (fieldX w) (fieldY w) (fieldN w) = w := by
  have := w.isLt
  apply BitVec.eq_of_toNat_eq
  rw [toNat_wordXYN, toNat_family, toNat_fieldX, toNat_fieldY, toNat_fieldN]; omega

/-- The two bytes of a word, put together again, are the word (R51). -/
theorem wordOfBytes_bytes (w : Word) : wordOfBytes (highByte w) (lowByte w) = w := by
  have := w.isLt
  apply BitVec.eq_of_toNat_eq; rw [toNat_wordOfBytes, toNat_highByte, toNat_lowByte]; omega

/-! ### Masks -/

theorem family_and (w m : Word) : family (w &&& m) = family w &&& family m := BitVec.extractLsb'_and ..
theorem fieldN_and (w m : Word) : fieldN (w &&& m) = fieldN w &&& fieldN m := BitVec.extractLsb'_and ..
theorem fieldNN_and (w m : Word) : fieldNN (w &&& m) = fieldNN w &&& fieldNN m := BitVec.extractLsb'_and ..

/-- R75's mask 0xF000 examines the family. -/
theorem family_of_mask {w p : Word} (h : w &&& 0xF000 = p) : family w = family p := by
  rw [← h, family_and, show family 0xF000 = BitVec.allOnes 4 from rfl, BitVec.and_allOnes]

/-- R75's mask 0xF00F examines the family and the low nibble. -/
theorem fields_of_mask_nibble {w p : Word} (h : w &&& 0xF00F = p) : family w = family p ∧ fieldN w = fieldN p := by
  rw [← h, family_and, fieldN_and, show family 0xF00F = BitVec.allOnes 4 from rfl,
    show fieldN 0xF00F = BitVec.allOnes 4 from rfl, BitVec.and_allOnes, BitVec.and_allOnes]
  exact ⟨rfl, rfl⟩

/-- R75's mask 0xF0FF examines the family and the low byte. -/
theorem fields_of_mask_byte {w p : Word} (h : w &&& 0xF0FF = p) : family w = family p ∧ fieldNN w = fieldNN p := by
  rw [← h, family_and, fieldNN_and, show family 0xF0FF = BitVec.allOnes 4 from rfl,
    show fieldNN 0xF0FF = BitVec.allOnes 8 from rfl, BitVec.and_allOnes, BitVec.and_allOnes]
  exact ⟨rfl, rfl⟩

/-- A word under the mask 0xF000 keeps its family only. -/
theorem and_mask_family (w : Word) : w &&& 0xF000 = wordNNN (family w) 0 := by
  rw [← wordNNN_fields (w &&& 0xF000), family_and, show family 0xF000 = BitVec.allOnes 4 from rfl, BitVec.and_allOnes]
  rw [show fieldNNN (w &&& 0xF000) = fieldNNN w &&& fieldNNN 0xF000 from BitVec.extractLsb'_and ..,
    show fieldNNN 0xF000 = 0#12 from rfl, BitVec.and_zero]
  rfl

/-- A word under the mask 0xF00F keeps its family and its low nibble. -/
theorem and_mask_nibble (w : Word) : w &&& 0xF00F = wordXYN (family w) 0 0 (fieldN w) := by
  rw [← wordXYN_fields (w &&& 0xF00F), family_and, fieldN_and, show family 0xF00F = BitVec.allOnes 4 from rfl,
    show fieldN 0xF00F = BitVec.allOnes 4 from rfl, BitVec.and_allOnes, BitVec.and_allOnes]
  rw [show fieldX (w &&& 0xF00F) = fieldX w &&& fieldX 0xF00F from BitVec.extractLsb'_and ..,
    show fieldY (w &&& 0xF00F) = fieldY w &&& fieldY 0xF00F from BitVec.extractLsb'_and ..,
    show fieldX 0xF00F = 0#4 from rfl, show fieldY 0xF00F = 0#4 from rfl, BitVec.and_zero, BitVec.and_zero]
  rfl

/-- A word under the mask 0xF0FF keeps its family and its low byte. -/
theorem and_mask_byte (w : Word) : w &&& 0xF0FF = wordXNN (family w) 0 (fieldNN w) := by
  rw [← wordXNN_fields (w &&& 0xF0FF), family_and, fieldNN_and, show family 0xF0FF = BitVec.allOnes 4 from rfl,
    show fieldNN 0xF0FF = BitVec.allOnes 8 from rfl, BitVec.and_allOnes, BitVec.and_allOnes]
  rw [show fieldX (w &&& 0xF0FF) = fieldX w &&& fieldX 0xF0FF from BitVec.extractLsb'_and ..,
    show fieldX 0xF0FF = 0#4 from rfl, BitVec.and_zero]
  rfl

/-! ### Dispatch by family (R75) -/

theorem dispatch_of_family0 {w : Word} (h : family w = 0x0) : dispatch w = dispatchFamily0 w := by
  unfold dispatch; rw [h]; rfl
theorem dispatch_of_family1 {w : Word} (h : family w = 0x1) : dispatch w = .ok (.jump (fieldNNN w)) := by
  unfold dispatch; rw [h]; rfl
theorem dispatch_of_family2 {w : Word} (h : family w = 0x2) : dispatch w = .ok (.call (fieldNNN w)) := by
  unfold dispatch; rw [h]; rfl
theorem dispatch_of_family3 {w : Word} (h : family w = 0x3) : dispatch w = .ok (.skipEqImm (fieldX w) (fieldNN w)) := by
  unfold dispatch; rw [h]; rfl
theorem dispatch_of_family4 {w : Word} (h : family w = 0x4) : dispatch w = .ok (.skipNeqImm (fieldX w) (fieldNN w)) := by
  unfold dispatch; rw [h]; rfl
theorem dispatch_of_family5 {w : Word} (h : family w = 0x5) : dispatch w = .ok (.skipEqReg (fieldX w) (fieldY w) (fieldN w)) := by
  unfold dispatch; rw [h]; rfl
theorem dispatch_of_family6 {w : Word} (h : family w = 0x6) : dispatch w = .ok (.setImm (fieldX w) (fieldNN w)) := by
  unfold dispatch; rw [h]; rfl
theorem dispatch_of_family7 {w : Word} (h : family w = 0x7) : dispatch w = .ok (.addImm (fieldX w) (fieldNN w)) := by
  unfold dispatch; rw [h]; rfl
theorem dispatch_of_family8 {w : Word} (h : family w = 0x8) : dispatch w = dispatchFamily8 w := by
  unfold dispatch; rw [h]; rfl
theorem dispatch_of_family9 {w : Word} (h : family w = 0x9) : dispatch w = .ok (.skipNeqReg (fieldX w) (fieldY w) (fieldN w)) := by
  unfold dispatch; rw [h]; rfl
theorem dispatch_of_familyA {w : Word} (h : family w = 0xA) : dispatch w = .ok (.setIndex (fieldNNN w)) := by
  unfold dispatch; rw [h]; rfl
theorem dispatch_of_familyB {w : Word} (h : family w = 0xB) : dispatch w = .ok (.jumpOffset (fieldNNN w)) := by
  unfold dispatch; rw [h]; rfl
theorem dispatch_of_familyC {w : Word} (h : family w = 0xC) : dispatch w = .ok (.rand (fieldX w) (fieldNN w)) := by
  unfold dispatch; rw [h]; rfl
theorem dispatch_of_familyD {w : Word} (h : family w = 0xD) : dispatch w = .ok (.drawSprite (fieldX w) (fieldY w) (fieldN w)) := by
  unfold dispatch; rw [h]; rfl
theorem dispatch_of_familyE {w : Word} (h : family w = 0xE) : dispatch w = dispatchFamilyE w := by
  unfold dispatch; rw [h]; rfl
theorem dispatch_of_familyF {w : Word} (h : family w = 0xF) : dispatch w = dispatchFamilyF w := by
  unfold dispatch; rw [h]; rfl

/-- The sixteen families are all. -/
theorem family_cases (f : Nibble) :
    f = 0x0 ∨ f = 0x1 ∨ f = 0x2 ∨ f = 0x3 ∨ f = 0x4 ∨ f = 0x5 ∨ f = 0x6 ∨ f = 0x7 ∨ f = 0x8 ∨ f = 0x9 ∨ f = 0xA ∨
      f = 0xB ∨ f = 0xC ∨ f = 0xD ∨ f = 0xE ∨ f = 0xF := by
  revert f; decide

end Sys2Proof
end

