-- ==== Sys2Proof/Laws/Memory.lean ====
section
/-!
SUPPORT. Memory: a read after a write, the canonical form is kept, and canonical memories that read alike are equal.
-/
namespace Sys2Proof.Machine

@[simp] theorem Memory.read_nil (a : Nat) : Memory.read [] a = Memory.unlisted a := rfl

theorem Memory.read_cons (a' : Nat) (b : Byte) (m : Memory) (a : Nat) :
    Memory.read ((a', b) :: m) a = if a = a' then b else Memory.read m a := rfl

theorem Memory.wf_cons {a : Nat} {b : Byte} {m : Memory} :
    Memory.wf ((a, b) :: m) = true ↔
      a < Config.memSize ∧ b ≠ Memory.unlisted a ∧ (∀ c ∈ m, a < c.1) ∧ Memory.wf m = true := by
  simp [Memory.wf, and_assoc]

/-- Below its first address a memory reads as unlisted. -/
theorem Memory.read_of_below {m : Memory} {a : Nat} (h : ∀ c ∈ m, a < c.1) :
    Memory.read m a = Memory.unlisted a := by
  induction m with
  | nil => rfl
  | cons c m ih =>
    obtain ⟨a', b⟩ := c
    have ha : a < a' := h (a', b) (by simp)
    rw [Memory.read_cons, if_neg (by omega), ih fun c hc => h c (by simp [hc])]

theorem Memory.read_cons_put {m : Memory} {a : Nat} {b : Byte} (h : ∀ c ∈ m, a < c.1) (a' : Nat) :
    Memory.read (Memory.cons a b m) a' = if a' = a then b else Memory.read m a' := by
  unfold Memory.cons
  split
  · split
    · next hb he => rw [he, Memory.read_of_below h, hb]
    · rfl
  · rfl

/-- A read after a write: the byte written at its address, what was there before elsewhere. -/
theorem Memory.read_put {m : Memory} (h : Memory.wf m = true) (a : Nat) (b : Byte) (a' : Nat) :
    Memory.read (Memory.put m a b) a' = if a' = a then b else Memory.read m a' := by
  induction m with
  | nil => exact Memory.read_cons_put (by simp) a'
  | cons c m ih =>
    obtain ⟨a₀, b₀⟩ := c
    obtain ⟨_, _, hlt, hwf⟩ := Memory.wf_cons.1 h
    unfold Memory.put
    split
    · next hlt' =>
      refine Memory.read_cons_put (fun c hc => ?_) a'
      rcases List.mem_cons.1 hc with rfl | hc
      · exact hlt'
      · exact Nat.lt_trans hlt' (hlt c hc)
    · split
      · next he =>
        subst he
        rw [Memory.read_cons_put hlt, Memory.read_cons]
        split <;> rfl
      · next hne =>
        rw [Memory.read_cons, ih hwf, Memory.read_cons]
        split
        · next he => rw [if_neg (by omega)]
        · rfl

theorem Memory.mem_cons_put {m : Memory} {a : Nat} {b : Byte} {c : Host.Cell} (h : c ∈ Memory.cons a b m) :
    c.1 = a ∨ c ∈ m := by
  unfold Memory.cons at h
  split at h
  · exact .inr h
  · rcases List.mem_cons.1 h with rfl | h
    · exact .inl rfl
    · exact .inr h

theorem Memory.mem_put {m : Memory} {a : Nat} {b : Byte} {c : Host.Cell} (h : c ∈ Memory.put m a b) :
    c.1 = a ∨ c ∈ m := by
  induction m with
  | nil => exact Memory.mem_cons_put h
  | cons d m ih =>
    unfold Memory.put at h
    split at h
    · exact Memory.mem_cons_put h
    · split at h
      · exact (Memory.mem_cons_put h).imp_right (List.mem_cons_of_mem _)
      · rcases List.mem_cons.1 h with rfl | h
        · exact .inr (by simp)
        · exact (ih h).imp_right (List.mem_cons_of_mem _)

theorem Memory.wf_cons_put {m : Memory} {a : Nat} {b : Byte} (ha : a < Config.memSize) (hlt : ∀ c ∈ m, a < c.1)
    (hwf : Memory.wf m = true) : Memory.wf (Memory.cons a b m) = true := by
  unfold Memory.cons
  split
  · exact hwf
  · next hb => exact Memory.wf_cons.2 ⟨ha, hb, hlt, hwf⟩

/-- A write keeps the canonical form. -/
theorem Memory.wf_put {m : Memory} (h : Memory.wf m = true) {a : Nat} (ha : a < Config.memSize) (b : Byte) :
    Memory.wf (Memory.put m a b) = true := by
  induction m with
  | nil => exact Memory.wf_cons_put ha (by simp) rfl
  | cons c m ih =>
    obtain ⟨a₀, b₀⟩ := c
    obtain ⟨ha₀, hb₀, hlt, hwf⟩ := Memory.wf_cons.1 h
    unfold Memory.put
    split
    · next hlt' =>
      refine Memory.wf_cons_put ha (fun c hc => ?_) h
      rcases List.mem_cons.1 hc with rfl | hc
      · exact hlt'
      · exact Nat.lt_trans hlt' (hlt c hc)
    · split
      · next he => subst he; exact Memory.wf_cons_put ha hlt hwf
      · next hne =>
        refine Memory.wf_cons.2 ⟨ha₀, hb₀, fun c hc => ?_, ih hwf⟩
        rcases Memory.mem_put hc with hc | hc
        · omega
        · exact hlt c hc

/-- Writing bytes at ascending addresses keeps the canonical form. -/
theorem Memory.wf_putBytes {m : Memory} (h : Memory.wf m = true) {a : Nat} {bs : List Byte}
    (ha : a + bs.length ≤ Config.memSize) : Memory.wf (Memory.putBytes m a bs) = true := by
  induction bs generalizing m a with
  | nil => exact h
  | cons b bs ih =>
    rw [List.length_cons] at ha
    exact ih (Memory.wf_put h (by omega) b) (by omega)

/-- A read after writing bytes at ascending addresses. -/
theorem Memory.read_putBytes {m : Memory} (h : Memory.wf m = true) {a : Nat} {bs : List Byte}
    (ha : a + bs.length ≤ Config.memSize) (a' : Nat) :
    Memory.read (Memory.putBytes m a bs) a' =
      if a ≤ a' ∧ a' < a + bs.length then bs.getD (a' - a) 0 else Memory.read m a' := by
  induction bs generalizing m a with
  | nil => simp [Memory.putBytes]
  | cons b bs ih =>
    rw [List.length_cons] at ha ⊢
    rw [Memory.putBytes, ih (Memory.wf_put h (by omega) b) (by omega), Memory.read_put h]
    by_cases he : a' = a
    · subst he; simp
    · by_cases hin : a + 1 ≤ a' ∧ a' < a + 1 + bs.length
      · have : a' - a = (a' - (a + 1)) + 1 := by omega
        rw [if_pos hin, if_pos (by omega), this, List.getD_cons_succ]
      · rw [if_neg hin, if_neg he, if_neg (by omega)]

/-- An address outside the 4096 bytes is listed by no canonical memory. -/
theorem Memory.lt_of_mem {m : Memory} (h : Memory.wf m = true) {c : Host.Cell} (hc : c ∈ m) :
    c.1 < Config.memSize := by
  induction m with
  | nil => simp at hc
  | cons d m ih =>
    obtain ⟨ha, _, _, hwf⟩ := Memory.wf_cons.1 h
    rcases List.mem_cons.1 hc with rfl | hc
    · exact ha
    · exact ih hwf hc

/-- The first address of a canonical memory reads as something else than unlisted. -/
theorem Memory.read_head_ne {a : Nat} {b : Byte} {m : Memory} (h : Memory.wf ((a, b) :: m) = true) :
    Memory.read ((a, b) :: m) a ≠ Memory.unlisted a := by
  rw [Memory.read_cons, if_pos rfl]
  exact (Memory.wf_cons.1 h).2.1

/-- Canonical memories that read alike at every address are the same data. -/
theorem Memory.ext_of_read {m m' : Memory} (h : Memory.wf m = true) (h' : Memory.wf m' = true)
    (hr : ∀ a < Config.memSize, Memory.read m a = Memory.read m' a) : m = m' := by
  induction m generalizing m' with
  | nil =>
    cases m' with
    | nil => rfl
    | cons c m' =>
      obtain ⟨a, b⟩ := c
      exact absurd (hr a (Memory.wf_cons.1 h').1).symm (Memory.read_head_ne h')
  | cons c m ih =>
    obtain ⟨a, b⟩ := c
    obtain ⟨ha, _, hlt, hwf⟩ := Memory.wf_cons.1 h
    cases m' with
    | nil => exact absurd (hr a ha) (Memory.read_head_ne h)
    | cons c' m' =>
      obtain ⟨a', b'⟩ := c'
      obtain ⟨ha', _, hlt', hwf'⟩ := Memory.wf_cons.1 h'
      have below {x : Nat} {y : Byte} {n : Memory} {z : Nat} (hz : z < x) (hn : ∀ c ∈ n, x < c.1) :
          Memory.read ((x, y) :: n) z = Memory.unlisted z :=
        Memory.read_of_below fun c hc => by
          rcases List.mem_cons.1 hc with rfl | hc
          · exact hz
          · exact Nat.lt_trans hz (hn c hc)
      rcases Nat.lt_trichotomy a a' with hlt₁ | rfl | hlt₁
      · exact absurd ((hr a ha).trans (below hlt₁ hlt')) (Memory.read_head_ne h)
      · have hb : b = b' := by simpa [Memory.read_cons] using hr a ha
        subst hb
        congr 1
        refine ih hwf hwf' fun z hz => ?_
        by_cases he : z = a
        · subst he; rw [Memory.read_of_below hlt, Memory.read_of_below hlt']
        · simpa [Memory.read_cons, he] using hr z hz
      · exact absurd ((hr a' ha').symm.trans (below hlt₁ hlt)) (Memory.read_head_ne h')

end Sys2Proof.Machine
end

