-- ==== Sys2Proof/Laws/State.lean ====
section
/-!
SUPPORT. What each field of the state is after each update, so that no proof unfolds a record update; then the reads
through an update.
-/
namespace Sys2Proof.Machine

/-! ### `State.setV` -/

@[simp] theorem setV_mem (s : State) (x : Nibble) (b : Byte) : (s.setV x b).mem = s.mem := rfl
@[simp] theorem setV_I (s : State) (x : Nibble) (b : Byte) : (s.setV x b).I = s.I := rfl
@[simp] theorem setV_pc (s : State) (x : Nibble) (b : Byte) : (s.setV x b).pc = s.pc := rfl
@[simp] theorem setV_stack (s : State) (x : Nibble) (b : Byte) : (s.setV x b).stack = s.stack := rfl
@[simp] theorem setV_sp (s : State) (x : Nibble) (b : Byte) : (s.setV x b).sp = s.sp := rfl
@[simp] theorem setV_dt (s : State) (x : Nibble) (b : Byte) : (s.setV x b).dt = s.dt := rfl
@[simp] theorem setV_st (s : State) (x : Nibble) (b : Byte) : (s.setV x b).st = s.st := rfl
@[simp] theorem setV_fb (s : State) (x : Nibble) (b : Byte) : (s.setV x b).fb = s.fb := rfl
@[simp] theorem setV_redraw (s : State) (x : Nibble) (b : Byte) : (s.setV x b).redraw = s.redraw := rfl
@[simp] theorem setV_keypad (s : State) (x : Nibble) (b : Byte) : (s.setV x b).keypad = s.keypad := rfl
@[simp] theorem setV_soundEdge (s : State) (x : Nibble) (b : Byte) : (s.setV x b).soundEdge = s.soundEdge := rfl
@[simp] theorem setV_status (s : State) (x : Nibble) (b : Byte) : (s.setV x b).status = s.status := rfl
@[simp] theorem setV_fault (s : State) (x : Nibble) (b : Byte) : (s.setV x b).fault = s.fault := rfl
@[simp] theorem setV_randIn (s : State) (x : Nibble) (b : Byte) : (s.setV x b).randIn = s.randIn := rfl
@[simp] theorem setV_draws (s : State) (x : Nibble) (b : Byte) : (s.setV x b).draws = s.draws := rfl

/-! ### `State.writeByte` -/

@[simp] theorem writeByte_v (s : State) (a : Nat) (b : Byte) : (s.writeByte a b).v = s.v := rfl
@[simp] theorem writeByte_I (s : State) (a : Nat) (b : Byte) : (s.writeByte a b).I = s.I := rfl
@[simp] theorem writeByte_pc (s : State) (a : Nat) (b : Byte) : (s.writeByte a b).pc = s.pc := rfl
@[simp] theorem writeByte_stack (s : State) (a : Nat) (b : Byte) : (s.writeByte a b).stack = s.stack := rfl
@[simp] theorem writeByte_sp (s : State) (a : Nat) (b : Byte) : (s.writeByte a b).sp = s.sp := rfl
@[simp] theorem writeByte_dt (s : State) (a : Nat) (b : Byte) : (s.writeByte a b).dt = s.dt := rfl
@[simp] theorem writeByte_st (s : State) (a : Nat) (b : Byte) : (s.writeByte a b).st = s.st := rfl
@[simp] theorem writeByte_fb (s : State) (a : Nat) (b : Byte) : (s.writeByte a b).fb = s.fb := rfl
@[simp] theorem writeByte_redraw (s : State) (a : Nat) (b : Byte) : (s.writeByte a b).redraw = s.redraw := rfl
@[simp] theorem writeByte_keypad (s : State) (a : Nat) (b : Byte) : (s.writeByte a b).keypad = s.keypad := rfl
@[simp] theorem writeByte_soundEdge (s : State) (a : Nat) (b : Byte) : (s.writeByte a b).soundEdge = s.soundEdge := rfl
@[simp] theorem writeByte_status (s : State) (a : Nat) (b : Byte) : (s.writeByte a b).status = s.status := rfl
@[simp] theorem writeByte_fault (s : State) (a : Nat) (b : Byte) : (s.writeByte a b).fault = s.fault := rfl
@[simp] theorem writeByte_randIn (s : State) (a : Nat) (b : Byte) : (s.writeByte a b).randIn = s.randIn := rfl
@[simp] theorem writeByte_draws (s : State) (a : Nat) (b : Byte) : (s.writeByte a b).draws = s.draws := rfl

/-! ### `State.advance` -/

@[simp] theorem advance_mem (s : State) : s.advance.mem = s.mem := rfl
@[simp] theorem advance_v (s : State) : s.advance.v = s.v := rfl
@[simp] theorem advance_I (s : State) : s.advance.I = s.I := rfl
@[simp] theorem advance_pc (s : State) : s.advance.pc = s.pc + 2 := rfl
@[simp] theorem advance_stack (s : State) : s.advance.stack = s.stack := rfl
@[simp] theorem advance_sp (s : State) : s.advance.sp = s.sp := rfl
@[simp] theorem advance_dt (s : State) : s.advance.dt = s.dt := rfl
@[simp] theorem advance_st (s : State) : s.advance.st = s.st := rfl
@[simp] theorem advance_fb (s : State) : s.advance.fb = s.fb := rfl
@[simp] theorem advance_redraw (s : State) : s.advance.redraw = s.redraw := rfl
@[simp] theorem advance_keypad (s : State) : s.advance.keypad = s.keypad := rfl
@[simp] theorem advance_soundEdge (s : State) : s.advance.soundEdge = s.soundEdge := rfl
@[simp] theorem advance_status (s : State) : s.advance.status = s.status := rfl
@[simp] theorem advance_fault (s : State) : s.advance.fault = s.fault := rfl
@[simp] theorem advance_randIn (s : State) : s.advance.randIn = s.randIn := rfl
@[simp] theorem advance_draws (s : State) : s.advance.draws = s.draws := rfl

/-! ### `State.skipIf` -/

@[simp] theorem skipIf_mem (s : State) (c : Bool) : (s.skipIf c).mem = s.mem := rfl
@[simp] theorem skipIf_v (s : State) (c : Bool) : (s.skipIf c).v = s.v := rfl
@[simp] theorem skipIf_I (s : State) (c : Bool) : (s.skipIf c).I = s.I := rfl
@[simp] theorem skipIf_pc (s : State) (c : Bool) : (s.skipIf c).pc = if c then s.pc + 4 else s.pc + 2 := rfl
@[simp] theorem skipIf_stack (s : State) (c : Bool) : (s.skipIf c).stack = s.stack := rfl
@[simp] theorem skipIf_sp (s : State) (c : Bool) : (s.skipIf c).sp = s.sp := rfl
@[simp] theorem skipIf_dt (s : State) (c : Bool) : (s.skipIf c).dt = s.dt := rfl
@[simp] theorem skipIf_st (s : State) (c : Bool) : (s.skipIf c).st = s.st := rfl
@[simp] theorem skipIf_fb (s : State) (c : Bool) : (s.skipIf c).fb = s.fb := rfl
@[simp] theorem skipIf_redraw (s : State) (c : Bool) : (s.skipIf c).redraw = s.redraw := rfl
@[simp] theorem skipIf_keypad (s : State) (c : Bool) : (s.skipIf c).keypad = s.keypad := rfl
@[simp] theorem skipIf_soundEdge (s : State) (c : Bool) : (s.skipIf c).soundEdge = s.soundEdge := rfl
@[simp] theorem skipIf_status (s : State) (c : Bool) : (s.skipIf c).status = s.status := rfl
@[simp] theorem skipIf_fault (s : State) (c : Bool) : (s.skipIf c).fault = s.fault := rfl
@[simp] theorem skipIf_randIn (s : State) (c : Bool) : (s.skipIf c).randIn = s.randIn := rfl
@[simp] theorem skipIf_draws (s : State) (c : Bool) : (s.skipIf c).draws = s.draws := rfl

/-! ### `State.jumpTo` -/

@[simp] theorem jumpTo_mem (s : State) (w : Word) : (s.jumpTo w).mem = s.mem := rfl
@[simp] theorem jumpTo_v (s : State) (w : Word) : (s.jumpTo w).v = s.v := rfl
@[simp] theorem jumpTo_I (s : State) (w : Word) : (s.jumpTo w).I = s.I := rfl
@[simp] theorem jumpTo_pc (s : State) (w : Word) : (s.jumpTo w).pc = w := rfl
@[simp] theorem jumpTo_stack (s : State) (w : Word) : (s.jumpTo w).stack = s.stack := rfl
@[simp] theorem jumpTo_sp (s : State) (w : Word) : (s.jumpTo w).sp = s.sp := rfl
@[simp] theorem jumpTo_dt (s : State) (w : Word) : (s.jumpTo w).dt = s.dt := rfl
@[simp] theorem jumpTo_st (s : State) (w : Word) : (s.jumpTo w).st = s.st := rfl
@[simp] theorem jumpTo_fb (s : State) (w : Word) : (s.jumpTo w).fb = s.fb := rfl
@[simp] theorem jumpTo_redraw (s : State) (w : Word) : (s.jumpTo w).redraw = s.redraw := rfl
@[simp] theorem jumpTo_keypad (s : State) (w : Word) : (s.jumpTo w).keypad = s.keypad := rfl
@[simp] theorem jumpTo_soundEdge (s : State) (w : Word) : (s.jumpTo w).soundEdge = s.soundEdge := rfl
@[simp] theorem jumpTo_status (s : State) (w : Word) : (s.jumpTo w).status = s.status := rfl
@[simp] theorem jumpTo_fault (s : State) (w : Word) : (s.jumpTo w).fault = s.fault := rfl
@[simp] theorem jumpTo_randIn (s : State) (w : Word) : (s.jumpTo w).randIn = s.randIn := rfl
@[simp] theorem jumpTo_draws (s : State) (w : Word) : (s.jumpTo w).draws = s.draws := rfl

/-! ### `State.setI` -/

@[simp] theorem setI_mem (s : State) (w : Word) : (s.setI w).mem = s.mem := rfl
@[simp] theorem setI_v (s : State) (w : Word) : (s.setI w).v = s.v := rfl
@[simp] theorem setI_I (s : State) (w : Word) : (s.setI w).I = w := rfl
@[simp] theorem setI_pc (s : State) (w : Word) : (s.setI w).pc = s.pc := rfl
@[simp] theorem setI_stack (s : State) (w : Word) : (s.setI w).stack = s.stack := rfl
@[simp] theorem setI_sp (s : State) (w : Word) : (s.setI w).sp = s.sp := rfl
@[simp] theorem setI_dt (s : State) (w : Word) : (s.setI w).dt = s.dt := rfl
@[simp] theorem setI_st (s : State) (w : Word) : (s.setI w).st = s.st := rfl
@[simp] theorem setI_fb (s : State) (w : Word) : (s.setI w).fb = s.fb := rfl
@[simp] theorem setI_redraw (s : State) (w : Word) : (s.setI w).redraw = s.redraw := rfl
@[simp] theorem setI_keypad (s : State) (w : Word) : (s.setI w).keypad = s.keypad := rfl
@[simp] theorem setI_soundEdge (s : State) (w : Word) : (s.setI w).soundEdge = s.soundEdge := rfl
@[simp] theorem setI_status (s : State) (w : Word) : (s.setI w).status = s.status := rfl
@[simp] theorem setI_fault (s : State) (w : Word) : (s.setI w).fault = s.fault := rfl
@[simp] theorem setI_randIn (s : State) (w : Word) : (s.setI w).randIn = s.randIn := rfl
@[simp] theorem setI_draws (s : State) (w : Word) : (s.setI w).draws = s.draws := rfl

/-! ### `State.raise` -/

@[simp] theorem raise_mem (s : State) (k : FaultKind) : (s.raise k).mem = s.mem := rfl
@[simp] theorem raise_v (s : State) (k : FaultKind) : (s.raise k).v = s.v := rfl
@[simp] theorem raise_I (s : State) (k : FaultKind) : (s.raise k).I = s.I := rfl
@[simp] theorem raise_pc (s : State) (k : FaultKind) : (s.raise k).pc = s.pc := rfl
@[simp] theorem raise_stack (s : State) (k : FaultKind) : (s.raise k).stack = s.stack := rfl
@[simp] theorem raise_sp (s : State) (k : FaultKind) : (s.raise k).sp = s.sp := rfl
@[simp] theorem raise_dt (s : State) (k : FaultKind) : (s.raise k).dt = s.dt := rfl
@[simp] theorem raise_st (s : State) (k : FaultKind) : (s.raise k).st = s.st := rfl
@[simp] theorem raise_fb (s : State) (k : FaultKind) : (s.raise k).fb = s.fb := rfl
@[simp] theorem raise_redraw (s : State) (k : FaultKind) : (s.raise k).redraw = s.redraw := rfl
@[simp] theorem raise_keypad (s : State) (k : FaultKind) : (s.raise k).keypad = s.keypad := rfl
@[simp] theorem raise_soundEdge (s : State) (k : FaultKind) : (s.raise k).soundEdge = s.soundEdge := rfl
@[simp] theorem raise_status (s : State) (k : FaultKind) : (s.raise k).status = k.haltStatus := rfl
@[simp] theorem raise_fault (s : State) (k : FaultKind) : (s.raise k).fault = some ⟨k, s.pc, s.fetchWord⟩ := rfl
@[simp] theorem raise_randIn (s : State) (k : FaultKind) : (s.raise k).randIn = s.randIn := rfl
@[simp] theorem raise_draws (s : State) (k : FaultKind) : (s.raise k).draws = s.draws := rfl

/-! ### `State.wait` -/

@[simp] theorem wait_mem (s : State) : s.wait.mem = s.mem := rfl
@[simp] theorem wait_v (s : State) : s.wait.v = s.v := rfl
@[simp] theorem wait_I (s : State) : s.wait.I = s.I := rfl
@[simp] theorem wait_pc (s : State) : s.wait.pc = s.pc := rfl
@[simp] theorem wait_stack (s : State) : s.wait.stack = s.stack := rfl
@[simp] theorem wait_sp (s : State) : s.wait.sp = s.sp := rfl
@[simp] theorem wait_dt (s : State) : s.wait.dt = s.dt := rfl
@[simp] theorem wait_st (s : State) : s.wait.st = s.st := rfl
@[simp] theorem wait_fb (s : State) : s.wait.fb = s.fb := rfl
@[simp] theorem wait_redraw (s : State) : s.wait.redraw = s.redraw := rfl
@[simp] theorem wait_keypad (s : State) : s.wait.keypad = s.keypad := rfl
@[simp] theorem wait_soundEdge (s : State) : s.wait.soundEdge = s.soundEdge := rfl
@[simp] theorem wait_status (s : State) : s.wait.status = .waitKey := rfl
@[simp] theorem wait_fault (s : State) : s.wait.fault = s.fault := rfl
@[simp] theorem wait_randIn (s : State) : s.wait.randIn = s.randIn := rfl
@[simp] theorem wait_draws (s : State) : s.wait.draws = s.draws := rfl

/-! ### `State.afterDraw` -/

@[simp] theorem afterDraw_mem (s : State) : s.afterDraw.mem = s.mem := rfl
@[simp] theorem afterDraw_v (s : State) : s.afterDraw.v = s.v := rfl
@[simp] theorem afterDraw_I (s : State) : s.afterDraw.I = s.I := rfl
@[simp] theorem afterDraw_pc (s : State) : s.afterDraw.pc = s.pc := rfl
@[simp] theorem afterDraw_stack (s : State) : s.afterDraw.stack = s.stack := rfl
@[simp] theorem afterDraw_sp (s : State) : s.afterDraw.sp = s.sp := rfl
@[simp] theorem afterDraw_dt (s : State) : s.afterDraw.dt = s.dt := rfl
@[simp] theorem afterDraw_st (s : State) : s.afterDraw.st = s.st := rfl
@[simp] theorem afterDraw_fb (s : State) : s.afterDraw.fb = s.fb := rfl
@[simp] theorem afterDraw_redraw (s : State) : s.afterDraw.redraw = s.redraw := rfl
@[simp] theorem afterDraw_keypad (s : State) : s.afterDraw.keypad = s.keypad := rfl
@[simp] theorem afterDraw_soundEdge (s : State) : s.afterDraw.soundEdge = s.soundEdge := rfl
@[simp] theorem afterDraw_status (s : State) : s.afterDraw.status = s.status := rfl
@[simp] theorem afterDraw_fault (s : State) : s.afterDraw.fault = s.fault := rfl
@[simp] theorem afterDraw_randIn (s : State) : s.afterDraw.randIn = s.randIn.tail := rfl
@[simp] theorem afterDraw_draws (s : State) : s.afterDraw.draws = s.draws + 1 := rfl

/-! ### `State.tick` -/

@[simp] theorem tick_mem (s : State) : s.tick.mem = s.mem := rfl
@[simp] theorem tick_v (s : State) : s.tick.v = s.v := rfl
@[simp] theorem tick_I (s : State) : s.tick.I = s.I := rfl
@[simp] theorem tick_pc (s : State) : s.tick.pc = s.pc := rfl
@[simp] theorem tick_stack (s : State) : s.tick.stack = s.stack := rfl
@[simp] theorem tick_sp (s : State) : s.tick.sp = s.sp := rfl
@[simp] theorem tick_dt (s : State) : s.tick.dt = countDown s.dt := rfl
@[simp] theorem tick_st (s : State) : s.tick.st = countDown s.st := rfl
@[simp] theorem tick_fb (s : State) : s.tick.fb = s.fb := rfl
@[simp] theorem tick_redraw (s : State) : s.tick.redraw = s.redraw := rfl
@[simp] theorem tick_keypad (s : State) : s.tick.keypad = s.keypad := rfl
@[simp] theorem tick_soundEdge (s : State) : s.tick.soundEdge = (s.st == 1) := rfl
@[simp] theorem tick_status (s : State) : s.tick.status = s.status := rfl
@[simp] theorem tick_fault (s : State) : s.tick.fault = s.fault := rfl
@[simp] theorem tick_randIn (s : State) : s.tick.randIn = s.randIn := rfl
@[simp] theorem tick_draws (s : State) : s.tick.draws = s.draws := rfl

/-! ### `State.beginStep` -/

@[simp] theorem beginStep_mem (s : State) : s.beginStep.mem = s.mem := rfl
@[simp] theorem beginStep_v (s : State) : s.beginStep.v = s.v := rfl
@[simp] theorem beginStep_I (s : State) : s.beginStep.I = s.I := rfl
@[simp] theorem beginStep_pc (s : State) : s.beginStep.pc = s.pc := rfl
@[simp] theorem beginStep_stack (s : State) : s.beginStep.stack = s.stack := rfl
@[simp] theorem beginStep_sp (s : State) : s.beginStep.sp = s.sp := rfl
@[simp] theorem beginStep_dt (s : State) : s.beginStep.dt = s.dt := rfl
@[simp] theorem beginStep_st (s : State) : s.beginStep.st = s.st := rfl
@[simp] theorem beginStep_fb (s : State) : s.beginStep.fb = s.fb := rfl
@[simp] theorem beginStep_redraw (s : State) : s.beginStep.redraw = s.redraw := rfl
@[simp] theorem beginStep_keypad (s : State) : s.beginStep.keypad = s.keypad := rfl
@[simp] theorem beginStep_soundEdge (s : State) : s.beginStep.soundEdge = s.soundEdge := rfl
@[simp] theorem beginStep_status (s : State) : s.beginStep.status = .run := rfl
@[simp] theorem beginStep_fault (s : State) : s.beginStep.fault = s.fault := rfl
@[simp] theorem beginStep_randIn (s : State) : s.beginStep.randIn = s.randIn := rfl
@[simp] theorem beginStep_draws (s : State) : s.beginStep.draws = s.draws := rfl

/-! ### Reads through an update that leaves what they read alone -/

@[simp] theorem setV_readByte (s : State) (x : Nibble) (b : Byte) (p : Nat) : (s.setV x b).readByte p = s.readByte p := rfl
@[simp] theorem setV_pixel (s : State) (x : Nibble) (b : Byte) (p : Nat) : (s.setV x b).pixel p = s.pixel p := rfl
@[simp] theorem setV_indexed (s : State) (x : Nibble) (b : Byte) (p : Nat) : (s.setV x b).indexed p = s.indexed p := rfl
@[simp] theorem writeByte_getV (s : State) (a : Nat) (b : Byte) (y : Nibble) : (s.writeByte a b).getV y = s.getV y := rfl
@[simp] theorem writeByte_pixel (s : State) (a : Nat) (b : Byte) (p : Nat) : (s.writeByte a b).pixel p = s.pixel p := rfl
@[simp] theorem writeByte_indexed (s : State) (a : Nat) (b : Byte) (p : Nat) : (s.writeByte a b).indexed p = s.indexed p := rfl
@[simp] theorem advance_getV (s : State) (y : Nibble) : s.advance.getV y = s.getV y := rfl
@[simp] theorem advance_readByte (s : State) (p : Nat) : s.advance.readByte p = s.readByte p := rfl
@[simp] theorem advance_pixel (s : State) (p : Nat) : s.advance.pixel p = s.pixel p := rfl
@[simp] theorem advance_indexed (s : State) (p : Nat) : s.advance.indexed p = s.indexed p := rfl
@[simp] theorem skipIf_getV (s : State) (c : Bool) (y : Nibble) : (s.skipIf c).getV y = s.getV y := rfl
@[simp] theorem skipIf_readByte (s : State) (c : Bool) (p : Nat) : (s.skipIf c).readByte p = s.readByte p := rfl
@[simp] theorem skipIf_pixel (s : State) (c : Bool) (p : Nat) : (s.skipIf c).pixel p = s.pixel p := rfl
@[simp] theorem skipIf_indexed (s : State) (c : Bool) (p : Nat) : (s.skipIf c).indexed p = s.indexed p := rfl
@[simp] theorem jumpTo_getV (s : State) (w : Word) (y : Nibble) : (s.jumpTo w).getV y = s.getV y := rfl
@[simp] theorem jumpTo_readByte (s : State) (w : Word) (p : Nat) : (s.jumpTo w).readByte p = s.readByte p := rfl
@[simp] theorem jumpTo_pixel (s : State) (w : Word) (p : Nat) : (s.jumpTo w).pixel p = s.pixel p := rfl
@[simp] theorem jumpTo_indexed (s : State) (w : Word) (p : Nat) : (s.jumpTo w).indexed p = s.indexed p := rfl
@[simp] theorem setI_getV (s : State) (w : Word) (y : Nibble) : (s.setI w).getV y = s.getV y := rfl
@[simp] theorem setI_readByte (s : State) (w : Word) (p : Nat) : (s.setI w).readByte p = s.readByte p := rfl
@[simp] theorem setI_pixel (s : State) (w : Word) (p : Nat) : (s.setI w).pixel p = s.pixel p := rfl
@[simp] theorem raise_getV (s : State) (k : FaultKind) (y : Nibble) : (s.raise k).getV y = s.getV y := rfl
@[simp] theorem raise_readByte (s : State) (k : FaultKind) (p : Nat) : (s.raise k).readByte p = s.readByte p := rfl
@[simp] theorem raise_pixel (s : State) (k : FaultKind) (p : Nat) : (s.raise k).pixel p = s.pixel p := rfl
@[simp] theorem raise_indexed (s : State) (k : FaultKind) (p : Nat) : (s.raise k).indexed p = s.indexed p := rfl
@[simp] theorem wait_getV (s : State) (y : Nibble) : s.wait.getV y = s.getV y := rfl
@[simp] theorem wait_readByte (s : State) (p : Nat) : s.wait.readByte p = s.readByte p := rfl
@[simp] theorem wait_pixel (s : State) (p : Nat) : s.wait.pixel p = s.pixel p := rfl
@[simp] theorem wait_indexed (s : State) (p : Nat) : s.wait.indexed p = s.indexed p := rfl
@[simp] theorem afterDraw_getV (s : State) (y : Nibble) : s.afterDraw.getV y = s.getV y := rfl
@[simp] theorem afterDraw_readByte (s : State) (p : Nat) : s.afterDraw.readByte p = s.readByte p := rfl
@[simp] theorem afterDraw_pixel (s : State) (p : Nat) : s.afterDraw.pixel p = s.pixel p := rfl
@[simp] theorem afterDraw_indexed (s : State) (p : Nat) : s.afterDraw.indexed p = s.indexed p := rfl
@[simp] theorem tick_getV (s : State) (y : Nibble) : s.tick.getV y = s.getV y := rfl
@[simp] theorem tick_readByte (s : State) (p : Nat) : s.tick.readByte p = s.readByte p := rfl
@[simp] theorem tick_pixel (s : State) (p : Nat) : s.tick.pixel p = s.pixel p := rfl
@[simp] theorem tick_indexed (s : State) (p : Nat) : s.tick.indexed p = s.indexed p := rfl
@[simp] theorem beginStep_getV (s : State) (y : Nibble) : s.beginStep.getV y = s.getV y := rfl
@[simp] theorem beginStep_readByte (s : State) (p : Nat) : s.beginStep.readByte p = s.readByte p := rfl
@[simp] theorem beginStep_pixel (s : State) (p : Nat) : s.beginStep.pixel p = s.pixel p := rfl
@[simp] theorem beginStep_indexed (s : State) (p : Nat) : s.beginStep.indexed p = s.indexed p := rfl

/-! ### Updates written as a record in a meaning or a port -/

@[simp] theorem fb_redraw_update_getV (s : State) (f : Framebuffer) (d : Bool) (y : Nibble) :
    State.getV { s with fb := f, redraw := d } y = s.getV y := rfl
@[simp] theorem fb_redraw_update_readByte (s : State) (f : Framebuffer) (d : Bool) (p : Nat) :
    State.readByte { s with fb := f, redraw := d } p = s.readByte p := rfl
@[simp] theorem fb_redraw_update_pixel (s : State) (f : Framebuffer) (d : Bool) (k : Nat) :
    State.pixel { s with fb := f, redraw := d } k = fbPixel f k := rfl
@[simp] theorem dt_update_getV (s : State) (b : Byte) (y : Nibble) : State.getV { s with dt := b } y = s.getV y := rfl
@[simp] theorem dt_update_readByte (s : State) (b : Byte) (p : Nat) :
    State.readByte { s with dt := b } p = s.readByte p := rfl
@[simp] theorem st_update_getV (s : State) (b : Byte) (y : Nibble) : State.getV { s with st := b } y = s.getV y := rfl
@[simp] theorem st_update_readByte (s : State) (b : Byte) (p : Nat) :
    State.readByte { s with st := b } p = s.readByte p := rfl
@[simp] theorem stack_update_getV (s : State) (k : Vector Word 16) (p : Fin 17) (y : Nibble) :
    State.getV { s with stack := k, sp := p } y = s.getV y := rfl
@[simp] theorem stack_update_readByte (s : State) (k : Vector Word 16) (p : Fin 17) (a : Nat) :
    State.readByte { s with stack := k, sp := p } a = s.readByte a := rfl
@[simp] theorem sp_update_getV (s : State) (p : Fin 17) (y : Nibble) : State.getV { s with sp := p } y = s.getV y := rfl
@[simp] theorem sp_update_readByte (s : State) (p : Fin 17) (a : Nat) :
    State.readByte { s with sp := p } a = s.readByte a := rfl

/-! ### Fetch and halt through the updates of a step -/

@[simp] theorem beginStep_fetchWord (s : State) : s.beginStep.fetchWord = s.fetchWord := rfl
@[simp] theorem tick_fetchWord (s : State) : s.tick.fetchWord = s.fetchWord := rfl
@[simp] theorem halted_eq_true (s : State) : s.halted = true ↔ s.fault ≠ none := by
  simp [State.halted, Option.isSome_iff_ne_none]
theorem fetchWord_congr {s t : State} (hp : t.pc = s.pc) (hm : ∀ a, t.readByte a = s.readByte a) :
    t.fetchWord = s.fetchWord := by
  simp [State.fetchWord, hp, hm]

end Sys2Proof.Machine
end

