-- ==== Sys2Proof/Laws/Operands.lean ====
section
/-!
SUPPORT. One lemma per operand operation: registers, memory bytes, register transfers, pixels, keys.
-/
namespace Sys2Proof.Machine

/-! ### Registers -/

theorem getV_setV (s : State) (x : Nibble) (b : Byte) (y : Nibble) :
    (s.setV x b).getV y = if y = x then b else s.getV y := by
  simp only [State.getV, State.setV, Vector.getElem_set, BitVec.toNat_inj, eq_comm (a := x)]

@[simp] theorem getV_setV_same (s : State) (x : Nibble) (b : Byte) : (s.setV x b).getV x = b := by
  simp [getV_setV]

theorem getV_setV_ne {s : State} {x y : Nibble} {b : Byte} (h : y ≠ x) : (s.setV x b).getV y = s.getV y := by
  simp [getV_setV, h]

/-- Two states with the same value in every register have the same register file. -/
theorem v_ext {s t : State} (h : ∀ r, t.getV r = s.getV r) : t.v = s.v := by
  apply Vector.ext
  intro k hk
  simpa [State.getV, Nat.mod_eq_of_lt hk] using h (BitVec.ofNat 4 k)

/-! ### Zero extension -/

@[simp] theorem toNat_zextByte (b : Byte) : (zextByte b).toNat = b.toNat := by
  have := b.isLt
  simp [zextByte]; omega

@[simp] theorem toNat_zextAddr (nnn : Addr12) : (zextAddr nnn).toNat = nnn.toNat := by
  have := nnn.isLt
  simp [zextAddr]; omega

/-! ### Result and flag -/

@[simp] theorem setVThenFlag_getV (s : State) (x : Nibble) (b : Byte) (f : Bool) (y : Nibble) :
    (s.setVThenFlag x b f).getV y = if y = vf then flagByte f else if y = x then b else s.getV y := by
  simp [State.setVThenFlag, getV_setV]

/-- The flag writers change the register file only. -/
theorem setVThenFlag_eq (s : State) (x : Nibble) (b : Byte) (f : Bool) :
    s.setVThenFlag x b f = { s with v := (s.setVThenFlag x b f).v } := rfl

/-! ### Memory bytes -/

/-- R53: only the low 12 bits of an address are used. -/
@[simp] theorem readByte_mod (s : State) (a : Nat) : s.readByte (a % 4096) = s.readByte a := by
  simp [State.readByte]

theorem readByte_writeByte {s : State} (h : Memory.wf s.mem = true) (a : Nat) (b : Byte) (a' : Nat) :
    (s.writeByte a b).readByte a' = if a' % 4096 = a % 4096 then b else s.readByte a' :=
  Memory.read_put h _ _ _

theorem wf_writeByte {s : State} (h : Memory.wf s.mem = true) (a : Nat) (b : Byte) :
    Memory.wf (s.writeByte a b).mem = true :=
  Memory.wf_put h (Nat.mod_lt _ (by decide)) b

/-- Two states whose canonical memories read alike have the same memory. -/
theorem mem_ext {s t : State} (hs : Memory.wf s.mem = true) (ht : Memory.wf t.mem = true)
    (h : ∀ a, t.readByte a = s.readByte a) : t.mem = s.mem :=
  Memory.ext_of_read ht hs fun a ha => by
    simpa [State.readByte, Nat.mod_eq_of_lt ha] using h a

/-! ### Register transfers -/

/-- reg-dump changes memory only. -/
theorem dumpRegs_eq (s : State) (k : Nat) : s.dumpRegs k = { s with mem := (s.dumpRegs k).mem } := by
  induction k with
  | zero => rfl
  | succ k ih => rw [State.dumpRegs, State.writeByte]; conv_lhs => rw [ih]

@[simp] theorem dumpRegs_getV (s : State) (k : Nat) (y : Nibble) : (s.dumpRegs k).getV y = s.getV y := by
  rw [dumpRegs_eq]; rfl

@[simp] theorem dumpRegs_indexed (s : State) (k n : Nat) : (s.dumpRegs k).indexed n = s.indexed n := by
  rw [dumpRegs_eq]; rfl

theorem wf_dumpRegs {s : State} (h : Memory.wf s.mem = true) (k : Nat) : Memory.wf (s.dumpRegs k).mem = true := by
  induction k with
  | zero => exact h
  | succ k ih => exact wf_writeByte ih _ _

/-- What memory reads as after V0 to Vk-1 are stored: register `(a − I) mod 4096` where that is one of them. -/
theorem readByte_dumpRegs {s : State} (h : Memory.wf s.mem = true) {k : Nat} (hk : k ≤ 16) (a : Nat) :
    (s.dumpRegs k).readByte a =
      if (a + 4096 * 16 - s.I.toNat) % 4096 < k then
        s.getV (BitVec.ofNat 4 ((a + 4096 * 16 - s.I.toNat) % 4096))
      else s.readByte a := by
  have hI : s.I.toNat < 65536 := s.I.isLt
  induction k with
  | zero => simp [State.dumpRegs]
  | succ k ih =>
    rw [State.dumpRegs, readByte_writeByte (wf_dumpRegs h k), ih (by omega)]
    by_cases he : a % 4096 = (s.I.toNat + k) % 4096
    · have hd : (a + 4096 * 16 - s.I.toNat) % 4096 = k := by omega
      simp [State.indexed, he, hd]
    · have hd : (a + 4096 * 16 - s.I.toNat) % 4096 ≠ k := by omega
      have : (a + 4096 * 16 - s.I.toNat) % 4096 < k + 1 ↔ (a + 4096 * 16 - s.I.toNat) % 4096 < k := by omega
      simp only [State.indexed, he, if_false, this]

/-- reg-load changes the register file only. -/
theorem loadRegs_eq (s : State) (k : Nat) : s.loadRegs k = { s with v := (s.loadRegs k).v } := by
  induction k with
  | zero => rfl
  | succ k ih => rw [State.loadRegs, State.setV]; conv_lhs => rw [ih]

@[simp] theorem loadRegs_readByte (s : State) (k a : Nat) : (s.loadRegs k).readByte a = s.readByte a := by
  rw [loadRegs_eq]; rfl

@[simp] theorem loadRegs_indexed (s : State) (k n : Nat) : (s.loadRegs k).indexed n = s.indexed n := by
  rw [loadRegs_eq]; rfl

/-- What the registers hold after V0 to Vk-1 are loaded. -/
theorem getV_loadRegs (s : State) {k : Nat} (hk : k ≤ 16) (y : Nibble) :
    (s.loadRegs k).getV y = if y.toNat < k then s.readByte (s.I.toNat + y.toNat) else s.getV y := by
  have hy : y.toNat < 16 := y.isLt
  induction k with
  | zero => simp [State.loadRegs]
  | succ k ih =>
    rw [State.loadRegs, getV_setV, ih (by omega)]
    by_cases he : y.toNat = k
    · have : y = BitVec.ofNat 4 k := by
        apply BitVec.eq_of_toNat_eq; simp; omega
      simp only [this, if_true, State.indexed]
      simp [Nat.mod_eq_of_lt (by omega : k < 16)]
    · have : y ≠ BitVec.ofNat 4 k := fun h => he (by
        have := congrArg BitVec.toNat h; simp at this; omega)
      have hlt : y.toNat < k + 1 ↔ y.toNat < k := by omega
      simp only [this, if_false, hlt]

/-! ### Pixels -/

theorem fbPixel_of_lt (fb : Framebuffer) {k : Nat} (h : k < 2048) :
    fbPixel fb k = (fb[k / 64]'(by omega)).getLsbD (k % 64) := by
  have h32 : k / 64 < 32 := by omega
  exact dif_pos h32

theorem fbFlip_of_lt (fb : Framebuffer) {k : Nat} (h : k < 2048) :
    fbFlip fb k = fb.set (k / 64) (fb[k / 64]'(by omega) ^^^ BitVec.twoPow 64 (k % 64)) (by omega) := by
  have h32 : k / 64 < 32 := by omega
  exact dif_pos h32

/-- Toggling pixel `k` changes pixel `k` and no other. -/
theorem fbPixel_fbFlip (fb : Framebuffer) {k j : Nat} (hk : k < 2048) (hj : j < 2048) :
    fbPixel (fbFlip fb k) j = (fbPixel fb j ^^ decide (j = k)) := by
  rw [fbPixel_of_lt _ hj, fbPixel_of_lt _ hj, fbFlip_of_lt _ hk, Vector.getElem_set]
  split
  · next he =>
    have h64 : k % 64 < 64 := Nat.mod_lt _ (by decide)
    have hjk : (j = k) ↔ k % 64 = j % 64 := by omega
    simp only [BitVec.getLsbD_xor, BitVec.getLsbD_twoPow, he, hjk, h64, decide_true, Bool.true_and]
  · next hne =>
    have : j ≠ k := fun h => hne (by rw [h])
    simp [this]

/-- Framebuffers with the same 2048 pixels are the same data. -/
theorem fb_ext {f g : Framebuffer} (h : ∀ k < 2048, fbPixel f k = fbPixel g k) : f = g := by
  apply Vector.ext
  intro y hy
  apply BitVec.eq_of_getLsbD_eq
  intro x hx
  have := h (y * 64 + x) (by omega)
  rw [fbPixel_of_lt _ (by omega), fbPixel_of_lt _ (by omega)] at this
  have hd : (y * 64 + x) / 64 = y := by omega
  have hm : (y * 64 + x) % 64 = x := by omega
  simpa only [hd, hm] using this

@[simp] theorem fbPixel_clear (k : Nat) : fbPixel (Vector.replicate 32 0#64) k = false := by
  unfold fbPixel; split <;> simp

theorem pixelIndex_eq (x0 y0 : Byte) (r c : Nat) :
    pixelIndex x0 y0 r c = ((x0.toNat + c) + (y0.toNat + r) * 64) % 2048 := rfl

theorem pixelIndex_lt (x0 y0 : Byte) (r c : Nat) : pixelIndex x0 y0 r c < 2048 := Nat.mod_lt _ (by decide)

/-! ### Keys -/

theorem keyDown_eq (s : State) (v : Byte) : s.keyDown v = (decide (v.toNat < 16) && s.keypad.getLsbD v.toNat) := by
  unfold State.keyDown; split <;> simp [*]

/-- The scan of wait-key finds the lowest key that is down. -/
theorem firstKey_eq_some {s : State} {k : Nat} :
    s.firstKey = some k ↔ k < 16 ∧ s.keypad.getLsbD k = true ∧ ∀ j < k, s.keypad.getLsbD j = false := by
  rw [State.firstKey, List.find?_range_eq_some]
  constructor
  · rintro ⟨hk, hp, hj⟩; exact ⟨by simpa using hp, hk, fun j h => by simpa using hj j h⟩
  · rintro ⟨hp, hk, hj⟩; exact ⟨hk, by simpa using hp, fun j h => by simpa using hj j h⟩

/-- The scan of wait-key finds nothing exactly when no key is down. -/
theorem firstKey_eq_none {s : State} : s.firstKey = none ↔ ∀ k < 16, s.keypad.getLsbD k = false := by
  simp [State.firstKey]

end Sys2Proof.Machine
end

