-- ==== Sys2Proof/Laws/Display.lean ====
section
/-!
SUPPORT. The sprite blit as one fold over the pixels it toggles, and what it does to each pixel and to the collision
flag (spec 43_display.md R181 to R183).
-/
namespace Sys2Proof.Machine

/-- The pixels a sprite toggles, in the order of the draw. -/
def State.spriteTargets (s : State) (x0 y0 : Byte) (n : Nat) : List Nat :=
  (List.range n).flatMap fun r => ((List.range 8).filter (s.spriteBit r)).map (pixelIndex x0 y0 r)

theorem blit_eq_foldl (s : State) (x0 y0 : Byte) (n : Nat) :
    s.blit x0 y0 n = (s.spriteTargets x0 y0 n).foldl (fun p k => blitBit k p) (s.fb, false) := by
  rw [State.blit, State.spriteTargets, List.foldl_flatMap]
  simp only [List.foldl_map, List.foldl_filter]
  rfl

theorem mem_spriteTargets {s : State} {x0 y0 : Byte} {n k : Nat} :
    k ∈ s.spriteTargets x0 y0 n ↔ s.SpriteHits x0 y0 n k := by
  simp only [State.spriteTargets, List.mem_flatMap, List.mem_range, List.mem_map, List.mem_filter, State.SpriteHits,
    pixelIndex_eq, and_assoc, eq_comm (b := k)]

/-- R183: the targets of two different sprite bits are different pixels. -/
theorem pixelIndex_inj {x0 y0 : Byte} {r c r' c' : Nat} (hr : r < 16) (hr' : r' < 16) (hc : c < 8) (hc' : c' < 8)
    (h : pixelIndex x0 y0 r c = pixelIndex x0 y0 r' c') : r = r' ∧ c = c' := by
  rw [pixelIndex_eq, pixelIndex_eq] at h
  omega

theorem spriteTargets_nodup (s : State) (x0 y0 : Byte) {n : Nat} (hn : n ≤ 16) :
    (s.spriteTargets x0 y0 n).Nodup := by
  rw [State.spriteTargets, List.nodup_flatMap]
  constructor
  · intro r hr
    have hr := List.mem_range.1 hr
    refine List.Nodup.map_on (fun c hc c' hc' h => ?_) (List.nodup_range.filter _)
    have hc := List.mem_range.1 (List.mem_filter.1 hc).1
    have hc' := List.mem_range.1 (List.mem_filter.1 hc').1
    exact (pixelIndex_inj (by omega) (by omega) hc hc' h).2
  · refine List.Pairwise.imp_of_mem (fun {r r'} hr hr' hne k hk hk' => ?_) List.nodup_range
    obtain ⟨c, hc, rfl⟩ := List.mem_map.1 hk
    obtain ⟨c', hc', h⟩ := List.mem_map.1 hk'
    have hr := List.mem_range.1 hr
    have hr' := List.mem_range.1 hr'
    have hc := List.mem_range.1 (List.mem_filter.1 hc).1
    have hc' := List.mem_range.1 (List.mem_filter.1 hc').1
    exact hne (pixelIndex_inj (by omega) (by omega) hc' hc h).1.symm

theorem spriteTargets_lt {s : State} {x0 y0 : Byte} {n k : Nat} (h : k ∈ s.spriteTargets x0 y0 n) : k < 2048 := by
  obtain ⟨r, _, c, _, _, rfl⟩ := mem_spriteTargets.1 h
  exact Nat.mod_lt _ (by decide)

/-- Toggling distinct pixels one after another: each is toggled once, and the flag collects their old values. -/
theorem foldl_blitBit {ks : List Nat} (hks : ks.Nodup) (hlt : ∀ k ∈ ks, k < 2048) (p : Framebuffer × Bool) :
    (∀ j < 2048, fbPixel (ks.foldl (fun p k => blitBit k p) p).1 j = (fbPixel p.1 j ^^ decide (j ∈ ks))) ∧
      (ks.foldl (fun p k => blitBit k p) p).2 = (p.2 || ks.any (fbPixel p.1)) := by
  induction ks generalizing p with
  | nil => simp
  | cons k ks ih =>
    have hk : k < 2048 := hlt k (by simp)
    obtain ⟨hnot, hnd⟩ := List.nodup_cons.1 hks
    have hlt' : ∀ k ∈ ks, k < 2048 := fun j h => hlt j (by simp [h])
    obtain ⟨h1, h2⟩ := ih hnd hlt' (blitBit k p)
    refine ⟨fun j hj => ?_, ?_⟩
    · rw [List.foldl_cons, h1 j hj, blitBit, fbPixel_fbFlip _ hk hj]
      by_cases he : j = k
      · subst he; simp [hnot]
      · simp [he]
    · have hold : ks.any (fbPixel (fbFlip p.1 k)) = ks.any (fbPixel p.1) := by
        rw [Bool.eq_iff_iff, List.any_eq_true, List.any_eq_true]
        refine exists_congr fun j => and_congr_right fun hj => ?_
        rw [fbPixel_fbFlip _ hk (hlt' j hj)]
        have : j ≠ k := fun h => hnot (h ▸ hj)
        simp [this]
      rw [List.foldl_cons, h2, blitBit, hold, List.any_cons, Bool.or_assoc]

/-- What the blit of a sprite does to each pixel. -/
theorem blit_pixel (s : State) (x0 y0 : Byte) {n : Nat} (hn : n ≤ 16) {j : Nat} (hj : j < 2048) :
    fbPixel (s.blit x0 y0 n).1 j = (s.pixel j ^^ decide (j ∈ s.spriteTargets x0 y0 n)) := by
  rw [blit_eq_foldl]
  exact (foldl_blitBit (spriteTargets_nodup s x0 y0 hn) (fun _ => spriteTargets_lt) (s.fb, false)).1 j hj

/-- The collision flag of a blit: some target was set before the draw. -/
theorem blit_collide (s : State) (x0 y0 : Byte) {n : Nat} (hn : n ≤ 16) :
    (s.blit x0 y0 n).2 = true ↔ ∃ k, s.SpriteHits x0 y0 n k ∧ s.pixel k = true := by
  rw [blit_eq_foldl, (foldl_blitBit (spriteTargets_nodup s x0 y0 hn) (fun _ => spriteTargets_lt) (s.fb, false)).2]
  simp only [Bool.false_or, List.any_eq_true, mem_spriteTargets, State.pixel]

end Sys2Proof.Machine
end

