-- ==== Sys2Proof/Laws/Exec.lean ====
section
/-!
SUPPORT. What the stack operations answer, what each shape of meaning answers, and facts of every instruction: it answers
a next state, and that state's memory is canonical again.
-/
namespace Sys2Proof.Machine

/-! ### The stack controller -/

theorem push_full {s : State} (h : s.sp.val = 16) (w : Word) : s.push w = none := by
  simp [State.push, h]

theorem push_of_lt {s : State} (h : s.sp.val < 16) (w : Word) :
    s.push w = some { s with stack := s.stack.set s.sp.val w, sp := ⟨s.sp.val + 1, by omega⟩ } := by
  simp [State.push, h]

theorem pop_empty {s : State} (h : s.sp.val = 0) : s.pop = none := by
  simp [State.pop, h]

theorem pop_of_pos {s : State} (h : s.sp.val ≠ 0) :
    s.pop = some (s.stack[s.sp.val - 1], { s with sp := ⟨s.sp.val - 1, by omega⟩ }) := by
  simp [State.pop, h]

/-- call answers a fault record or a pushed address, by the stack pointer alone (R104). -/
theorem execCall_eq (nnn : Addr12) (s : State) :
    (s.sp.val = 16 ∧ execCall nnn s = .next (s.raise .stackOverflow)) ∨
      ∃ h : s.sp.val < 16, execCall nnn s = .next { s with
        stack := s.stack.set s.sp.val s.pc, sp := ⟨s.sp.val + 1, by omega⟩, pc := zextAddr nnn } := by
  by_cases h : s.sp.val < 16
  · exact .inr ⟨h, by rw [execCall, push_of_lt h]; rfl⟩
  · have h16 : s.sp.val = 16 := by omega
    exact .inl ⟨h16, by rw [execCall, push_full h16]⟩

/-- return answers a fault record or a popped address, by the stack pointer alone (R101). -/
theorem execRet_eq (s : State) :
    (s.sp.val = 0 ∧ execRet s = .next (s.raise .stackUnderflow)) ∨
      ∃ _ : s.sp.val ≠ 0, execRet s = .next { s with
        sp := ⟨s.sp.val - 1, by omega⟩, pc := s.stack[s.sp.val - 1] + 2 } := by
  by_cases h : s.sp.val = 0
  · exact .inl ⟨h, by rw [execRet, pop_empty h]⟩
  · exact .inr ⟨h, by rw [execRet, pop_of_pos h]; rfl⟩

/-- wait-key answers the lowest key that is down, or waits (R205). -/
theorem execWaitKey_eq (x : Nibble) (s : State) :
    (∃ k, s.firstKey = some k ∧ execWaitKey x s = .next (s.setV x (BitVec.ofNat 8 k)).advance) ∨
      (s.firstKey = none ∧ execWaitKey x s = .next s.wait) := by
  cases h : s.firstKey with
  | none => exact .inr ⟨rfl, by rw [execWaitKey, h]⟩
  | some k => exact .inl ⟨k, rfl, by rw [execWaitKey, h]⟩

/-! ### Facts of every instruction -/

/-- Every instruction answers a next state from every state. -/
theorem exec_next (i : Instr) (s : State) : ∃ t, exec i s = .next t := by
  cases i with
  | ret => rcases execRet_eq s with ⟨_, h⟩ | ⟨_, h⟩ <;> exact ⟨_, h⟩
  | call nnn => rcases execCall_eq nnn s with ⟨_, h⟩ | ⟨_, h⟩ <;> exact ⟨_, h⟩
  | waitKey x => rcases execWaitKey_eq x s with ⟨_, _, h⟩ | ⟨_, h⟩ <;> exact ⟨_, h⟩
  | _ => exact ⟨_, rfl⟩

/-- The instructions that store to memory are store-bcd and reg-dump. -/
theorem exec_mem {i : Instr} {s t : State} (h : exec i s = .next t) :
    t.mem = s.mem ∨
      (∃ x, i = .storeBcd x ∧ t.mem = (((s.writeByte (s.indexed 0) (bcdHundreds (s.getV x))).writeByte (s.indexed 1)
        (bcdTens (s.getV x))).writeByte (s.indexed 2) (bcdUnits (s.getV x))).mem) ∨
      ∃ x, i = .regDump x ∧ t.mem = (s.dumpRegs (x.toNat + 1)).mem := by
  cases i with
  | ret =>
    rcases execRet_eq s with ⟨_, he⟩ | ⟨_, he⟩ <;> rw [exec, he] at h <;> cases h <;> exact .inl rfl
  | call nnn =>
    rcases execCall_eq nnn s with ⟨_, he⟩ | ⟨_, he⟩ <;> rw [exec, he] at h <;> cases h <;> exact .inl rfl
  | waitKey x =>
    rcases execWaitKey_eq x s with ⟨_, _, he⟩ | ⟨_, he⟩ <;> rw [exec, he] at h <;> cases h <;> exact .inl rfl
  | storeBcd x => cases h; exact .inr (.inl ⟨x, rfl, rfl⟩)
  | regDump x => cases h; exact .inr (.inr ⟨x, rfl, rfl⟩)
  | regLoad x => cases h; left; rw [advance_mem, loadRegs_eq]
  | _ => cases h; exact .inl rfl

/-- Every instruction keeps memory canonical. -/
theorem exec_wf {i : Instr} {s t : State} (h : exec i s = .next t) (hs : Memory.wf s.mem = true) :
    Memory.wf t.mem = true := by
  rcases exec_mem h with hm | ⟨x, _, hm⟩ | ⟨x, _, hm⟩ <;> rw [hm]
  · exact hs
  · exact wf_writeByte (wf_writeByte (wf_writeByte hs _ _) _ _) _ _
  · exact wf_dumpRegs hs _

end Sys2Proof.Machine
end

