-- ==== Sys2Proof/Laws/PerInstr.lean ====
section
/-!
SUPPORT. Facts about every instruction as syntax, one lemma a constructor (LAWS.json).
`EncodeSelectsRow`: the word of an instruction is one of those its row of R75's table selects.
-/
namespace Sys2Proof.Laws.EncodeSelectsRow

def Statement (i : Instr) : Prop :=
  ∃ row ∈ opcodeMap, row.mnemonic = i.mnemonic ∧ encode i &&& row.mask = row.pattern

/-- A word assembled from a family matches a row that examines the family only. -/
theorem and_family_wordNNN (f : Nibble) (nnn : Addr12) : wordNNN f nnn &&& 0xF000 = wordNNN f 0 := by
  rw [and_mask_family, family_wordNNN]

theorem and_family_wordXNN (f x : Nibble) (nn : Byte) : wordXNN f x nn &&& 0xF000 = wordNNN f 0 := by
  rw [and_mask_family, family_wordXNN]

theorem and_family_wordXYN (f x y n : Nibble) : wordXYN f x y n &&& 0xF000 = wordNNN f 0 := by
  rw [and_mask_family, family_wordXYN]

/-- A word assembled from a family and a low byte matches a row that examines these. -/
theorem and_byte_wordXNN (f x : Nibble) (nn : Byte) : wordXNN f x nn &&& 0xF0FF = wordXNN f 0 nn := by
  rw [and_mask_byte, family_wordXNN, fieldNN_wordXNN]

/-- A word assembled from a family and a low nibble matches a row that examines these. -/
theorem and_nibble_wordXYN (f x y n : Nibble) : wordXYN f x y n &&& 0xF00F = wordXYN f 0 0 n := by
  rw [and_mask_nibble, family_wordXYN, fieldN_wordXYN]

theorem clearScreen (ign : Nibble) : Statement (.clearScreen ign) :=
  ⟨opcodeMap[0], List.getElem_mem _, rfl, (and_byte_wordXNN ..).trans rfl⟩
theorem ret (ign : Nibble) : Statement (.ret ign) :=
  ⟨opcodeMap[1], List.getElem_mem _, rfl, (and_byte_wordXNN ..).trans rfl⟩
theorem jump (nnn : Addr12) : Statement (.jump nnn) :=
  ⟨opcodeMap[2], List.getElem_mem _, rfl, (and_family_wordNNN ..).trans rfl⟩
theorem call (nnn : Addr12) : Statement (.call nnn) :=
  ⟨opcodeMap[3], List.getElem_mem _, rfl, (and_family_wordNNN ..).trans rfl⟩
theorem skipEqImm (x : Nibble) (nn : Byte) : Statement (.skipEqImm x nn) :=
  ⟨opcodeMap[4], List.getElem_mem _, rfl, (and_family_wordXNN ..).trans rfl⟩
theorem skipNeqImm (x : Nibble) (nn : Byte) : Statement (.skipNeqImm x nn) :=
  ⟨opcodeMap[5], List.getElem_mem _, rfl, (and_family_wordXNN ..).trans rfl⟩
theorem skipEqReg (x y ign : Nibble) : Statement (.skipEqReg x y ign) :=
  ⟨opcodeMap[6], List.getElem_mem _, rfl, (and_family_wordXYN ..).trans rfl⟩
theorem setImm (x : Nibble) (nn : Byte) : Statement (.setImm x nn) :=
  ⟨opcodeMap[7], List.getElem_mem _, rfl, (and_family_wordXNN ..).trans rfl⟩
theorem addImm (x : Nibble) (nn : Byte) : Statement (.addImm x nn) :=
  ⟨opcodeMap[8], List.getElem_mem _, rfl, (and_family_wordXNN ..).trans rfl⟩
theorem setReg (x y : Nibble) : Statement (.setReg x y) :=
  ⟨opcodeMap[9], List.getElem_mem _, rfl, (and_nibble_wordXYN ..).trans rfl⟩
theorem orReg (x y : Nibble) : Statement (.orReg x y) :=
  ⟨opcodeMap[10], List.getElem_mem _, rfl, (and_nibble_wordXYN ..).trans rfl⟩
theorem andReg (x y : Nibble) : Statement (.andReg x y) :=
  ⟨opcodeMap[11], List.getElem_mem _, rfl, (and_nibble_wordXYN ..).trans rfl⟩
theorem xorReg (x y : Nibble) : Statement (.xorReg x y) :=
  ⟨opcodeMap[12], List.getElem_mem _, rfl, (and_nibble_wordXYN ..).trans rfl⟩
theorem addReg (x y : Nibble) : Statement (.addReg x y) :=
  ⟨opcodeMap[13], List.getElem_mem _, rfl, (and_nibble_wordXYN ..).trans rfl⟩
theorem subReg (x y : Nibble) : Statement (.subReg x y) :=
  ⟨opcodeMap[14], List.getElem_mem _, rfl, (and_nibble_wordXYN ..).trans rfl⟩
theorem shiftRight (x ign : Nibble) : Statement (.shiftRight x ign) :=
  ⟨opcodeMap[15], List.getElem_mem _, rfl, (and_nibble_wordXYN ..).trans rfl⟩
theorem subn (x y : Nibble) : Statement (.subn x y) :=
  ⟨opcodeMap[16], List.getElem_mem _, rfl, (and_nibble_wordXYN ..).trans rfl⟩
theorem shiftLeft (x ign : Nibble) : Statement (.shiftLeft x ign) :=
  ⟨opcodeMap[17], List.getElem_mem _, rfl, (and_nibble_wordXYN ..).trans rfl⟩
theorem skipNeqReg (x y ign : Nibble) : Statement (.skipNeqReg x y ign) :=
  ⟨opcodeMap[18], List.getElem_mem _, rfl, (and_family_wordXYN ..).trans rfl⟩
theorem setIndex (nnn : Addr12) : Statement (.setIndex nnn) :=
  ⟨opcodeMap[19], List.getElem_mem _, rfl, (and_family_wordNNN ..).trans rfl⟩
theorem jumpOffset (nnn : Addr12) : Statement (.jumpOffset nnn) :=
  ⟨opcodeMap[20], List.getElem_mem _, rfl, (and_family_wordNNN ..).trans rfl⟩
theorem rand (x : Nibble) (nn : Byte) : Statement (.rand x nn) :=
  ⟨opcodeMap[21], List.getElem_mem _, rfl, (and_family_wordXNN ..).trans rfl⟩
theorem drawSprite (x y n : Nibble) : Statement (.drawSprite x y n) :=
  ⟨opcodeMap[22], List.getElem_mem _, rfl, (and_family_wordXYN ..).trans rfl⟩
theorem skipKeyPressed (x : Nibble) : Statement (.skipKeyPressed x) :=
  ⟨opcodeMap[23], List.getElem_mem _, rfl, (and_byte_wordXNN ..).trans rfl⟩
theorem skipKeyNotPressed (x : Nibble) : Statement (.skipKeyNotPressed x) :=
  ⟨opcodeMap[24], List.getElem_mem _, rfl, (and_byte_wordXNN ..).trans rfl⟩
theorem getDelay (x : Nibble) : Statement (.getDelay x) :=
  ⟨opcodeMap[25], List.getElem_mem _, rfl, (and_byte_wordXNN ..).trans rfl⟩
theorem waitKey (x : Nibble) : Statement (.waitKey x) :=
  ⟨opcodeMap[26], List.getElem_mem _, rfl, (and_byte_wordXNN ..).trans rfl⟩
theorem setDelay (x : Nibble) : Statement (.setDelay x) :=
  ⟨opcodeMap[27], List.getElem_mem _, rfl, (and_byte_wordXNN ..).trans rfl⟩
theorem setSound (x : Nibble) : Statement (.setSound x) :=
  ⟨opcodeMap[28], List.getElem_mem _, rfl, (and_byte_wordXNN ..).trans rfl⟩
theorem addIndex (x : Nibble) : Statement (.addIndex x) :=
  ⟨opcodeMap[29], List.getElem_mem _, rfl, (and_byte_wordXNN ..).trans rfl⟩
theorem fontAddr (x : Nibble) : Statement (.fontAddr x) :=
  ⟨opcodeMap[30], List.getElem_mem _, rfl, (and_byte_wordXNN ..).trans rfl⟩
theorem storeBcd (x : Nibble) : Statement (.storeBcd x) :=
  ⟨opcodeMap[31], List.getElem_mem _, rfl, (and_byte_wordXNN ..).trans rfl⟩
theorem regDump (x : Nibble) : Statement (.regDump x) :=
  ⟨opcodeMap[32], List.getElem_mem _, rfl, (and_byte_wordXNN ..).trans rfl⟩
theorem regLoad (x : Nibble) : Statement (.regLoad x) :=
  ⟨opcodeMap[33], List.getElem_mem _, rfl, (and_byte_wordXNN ..).trans rfl⟩

end Sys2Proof.Laws.EncodeSelectsRow
end

