-- ==== Sys2Proof/Laws/Step.lean ====
section
/-!
SUPPORT. What a step can do, once (spec 30_encoding.md R70): a halted step, the fault of an unknown opcode and the tick, or
the instruction and the tick. Then runs of several steps, the load port, and the words that select a row.
-/
namespace Sys2Proof.Machine

/-- dispatch rejects by naming the word it was given, and in no other way. -/
theorem dispatch_error {w : Word} {e : DecodeError} (h : dispatch w = .error e) : e = .unknownOpcode w := by
  unfold dispatch dispatchFamily0 dispatchFamily8 dispatchFamilyE dispatchFamilyF at h
  split at h <;> first | (cases h; done) | (cases h; rfl) | (split at h <;> cases h; rfl)

theorem step_halted {s : State} {f : FaultRecord} (h : s.fault = some f) :
    step s = .next { s with soundEdge := false, status := f.kind.haltStatus } := by
  rw [step, if_pos (by simp [h]), State.haltedStep, h]

theorem step_running {s : State} (h : s.fault = none) :
    step s = match dispatch s.fetchWord with
      | .ok i => finishStep (exec i s.beginStep)
      | .error _ => .next s.unknownOpcodeStep := by
  unfold step
  exact if_neg (by simp [h])

theorem step_unknown {s : State} (h : s.fault = none) {e : DecodeError} (hd : dispatch s.fetchWord = .error e) :
    step s = .next (s.raise .unknownOpcode).tick := by
  rw [step_running h, hd]; rfl

theorem step_instr {s t : State} (h : s.fault = none) {i : Instr} (hd : dispatch s.fetchWord = .ok i)
    (he : exec i s.beginStep = .next t) : step s = .next t.tick := by
  rw [step_running h, hd]; simp only [he]; rfl

/-- A step that is not halted is a state before the tick, ticked. -/
theorem step_of_beforeTick {s u : State} (h : s.fault = none) (hu : BeforeTick s u) : step s = .next u.tick := by
  rcases hu with ⟨i, hd, he⟩ | ⟨hd, rfl⟩
  · exact step_instr h hd he
  · exact step_unknown h hd

/-- From every state there is a state before the tick. -/
theorem exists_beforeTick (s : State) : ∃ u, BeforeTick s u := by
  cases hd : dispatch s.fetchWord with
  | ok i =>
    obtain ⟨u, hu⟩ := exec_next i s.beginStep
    exact ⟨u, .inl ⟨i, hd, hu⟩⟩
  | error e => exact ⟨_, .inr ⟨by rw [hd, dispatch_error hd], rfl⟩⟩

/-- What a step can do, guards included. -/
theorem step_cases {s t : State} (h : step s = .next t) :
    (∃ f, s.fault = some f ∧ t = { s with soundEdge := false, status := f.kind.haltStatus }) ∨
      (s.fault = none ∧ ∃ u, BeforeTick s u ∧ t = u.tick) := by
  cases hf : s.fault with
  | some f =>
    rw [step_halted hf] at h
    cases h
    exact .inl ⟨f, rfl, by rw [hf]⟩
  | none =>
    obtain ⟨u, hu⟩ := exists_beforeTick s
    rw [step_of_beforeTick hf hu] at h
    cases h
    exact .inr ⟨rfl, u, hu, rfl⟩

/-- The state before the tick has canonical memory again. -/
theorem beforeTick_wf {s u : State} (h : BeforeTick s u) (hs : Memory.wf s.mem = true) : Memory.wf u.mem = true := by
  rcases h with ⟨i, _, he⟩ | ⟨_, rfl⟩
  · exact exec_wf he hs
  · exact hs

/-- Every step keeps memory canonical. -/
theorem step_wf {s t : State} (h : step s = .next t) (hs : Memory.wf s.mem = true) : Memory.wf t.mem = true := by
  rcases step_cases h with ⟨f, _, rfl⟩ | ⟨_, u, hu, rfl⟩
  · exact hs
  · exact beforeTick_wf (u := u) hu hs

/-- A successful load writes memory only, inside 0x200–0xFFF. -/
theorem load_ok {s t : State} {bytes : List Byte} (h : s.load bytes = .ok t) :
    bytes.length ≤ 3584 ∧ t = { s with mem := Memory.putBytes s.mem 512 bytes } := by
  unfold State.load at h
  split at h
  · cases h
  · next hl => cases h; exact ⟨by simpa using hl, rfl⟩

theorem wf_load {s t : State} {bytes : List Byte} (h : s.load bytes = .ok t) (hs : Memory.wf s.mem = true) :
    Memory.wf t.mem = true := by
  obtain ⟨hl, rfl⟩ := load_ok h
  exact Memory.wf_putBytes hs (by simp only [Config.memSize]; omega)

/-! ### Runs -/

@[simp] theorem core_run_zero (s : State) : core.run 0 s = .next s := rfl

/-- A run of a machine is its first step, then the rest. -/
theorem run_succ (M : Host.Core) {s t : M.State} (h : M.step s = .next t) (n : Nat) : M.run (n + 1) s = M.run n t := by
  simp only [Host.Core.run, h]

theorem core_run_succ {s t : State} (h : step s = .next t) (n : Nat) : core.run (n + 1) s = core.run n t :=
  run_succ core h n

/-! ### Rows by their masks (R75) -/

theorem selects_family {p : Word} {read : Word → Instr}
    (h : ∀ w, family w = family p → dispatch w = .ok (read w)) : Selects 0xF000 p read :=
  fun w hw => h w (family_of_mask hw)

theorem selects_nibble {p : Word} {read : Word → Instr}
    (h : ∀ w, family w = family p → fieldN w = fieldN p → dispatch w = .ok (read w)) : Selects 0xF00F p read :=
  fun w hw => h w (fields_of_mask_nibble hw).1 (fields_of_mask_nibble hw).2

theorem selects_byte {p : Word} {read : Word → Instr}
    (h : ∀ w, family w = family p → fieldNN w = fieldNN p → dispatch w = .ok (read w)) : Selects 0xF0FF p read :=
  fun w hw => h w (fields_of_mask_byte hw).1 (fields_of_mask_byte hw).2

end Sys2Proof.Machine
end

