-- ==== Sys2Proof/WellFormed.lean ====
section
/-!
DEFINITION. Well-formed instructions: the form an assembler writes (spec 30_encoding.md R80).
Every operand's range is its type (X, Y, N: 4 bits; NN: 8; NNN: 12; R73), so the one thing left to check is
that a field the instruction ignores is assembled as 0 (R76, R80). The hardware runs the other forms the
same (R76): no meaning and no statement about execution assumes that an instruction is well-formed.
-/
namespace Sys2Proof

/-- R76, R80: "A field the instruction ignores (rule R76) is assembled as 0." -/
def Instr.wellFormed : Instr → Bool
  | .clearScreen ign => ign == 0
  | .ret ign => ign == 0
  | .skipEqReg _ _ ign => ign == 0
  | .skipNeqReg _ _ ign => ign == 0
  | .shiftRight _ ign => ign == 0
  | .shiftLeft _ ign => ign == 0
  | .jump _ => true
  | .call _ => true
  | .skipEqImm _ _ => true
  | .skipNeqImm _ _ => true
  | .setImm _ _ => true
  | .addImm _ _ => true
  | .setReg _ _ => true
  | .orReg _ _ => true
  | .andReg _ _ => true
  | .xorReg _ _ => true
  | .addReg _ _ => true
  | .subReg _ _ => true
  | .subn _ _ => true
  | .setIndex _ => true
  | .jumpOffset _ => true
  | .rand _ _ => true
  | .drawSprite _ _ _ => true
  | .skipKeyPressed _ => true
  | .skipKeyNotPressed _ => true
  | .getDelay _ => true
  | .waitKey _ => true
  | .setDelay _ => true
  | .setSound _ => true
  | .addIndex _ => true
  | .fontAddr _ => true
  | .storeBcd _ => true
  | .regDump _ => true
  | .regLoad _ => true

end Sys2Proof
end

