-- ==== Sys2Proof/Tests/Slice0.lean ====
section
/-!
SUPPORT. The model's own tests. Expected values come from spec 95_test_vectors.md (cited by its ids) or are worked out by hand
from the rules; none is an answer of the model. Then a witness for the hypotheses of each statement of
Certificates/Slice0/Obligations.lean that has any.
-/
namespace Sys2Proof.Tests.Slice0
open Sys2Proof Sys2Proof.Machine

/-! ### Helpers -/

/-- The state of an answer; reset where there is none. -/
def stateOf : Result → State
  | .next t => t
  | _ => State.reset

/-- Set registers. -/
def withV (s : State) (vs : List (Nibble × Byte)) : State := vs.foldl (fun s p => s.setV p.1 p.2) s

/-- Set bytes of memory. -/
def withMem (s : State) (bs : List (Nat × Byte)) : State := bs.foldl (fun s p => s.writeByte p.1 p.2) s

/-- Set pixels that are clear. -/
def withPixels (s : State) (ks : List Nat) : State := { s with fb := ks.foldl fbFlip s.fb }

/-- The reset state with some registers set. -/
def regs (vs : List (Nibble × Byte)) : State := withV State.reset vs

/-- One step of the word `w`, stored at pc. -/
def run (s : State) (w : Nat) : State := stateOf (step (s.withFetchWord 16 w))

/-- The values of some registers. -/
def vals (s : State) (xs : List Nibble) : List Byte := xs.map s.getV

/-- The bytes at some addresses. -/
def bytes (s : State) (as : List Nat) : List Byte := as.map s.readByte

/-- The set pixels among those named. -/
def lit (s : State) (ks : List Nat) : List Nat := ks.filter s.pixel

/-- A state with a stack pointer, its stack filled with `w`. -/
def atSp (p : Fin 17) (w : Word) : State := { State.reset with sp := p, stack := Vector.replicate 16 w }

/-- The halted state of FLT-1. -/
def haltedState : State :=
  { State.reset with fault := some ⟨.unknownOpcode, 0x200, 0x0000⟩, status := .haltUnknownOpcode, soundEdge := true, dt := 2 }

/-! ### WellFormed smoke: each check refuses an ill-formed term (R80) -/

theorem test_illformed_clear_screen : Instr.wellFormed (.clearScreen 1) = false := by decide
theorem test_illformed_return : Instr.wellFormed (.ret 0xF) = false := by decide
theorem test_illformed_skip_eq_reg : Instr.wellFormed (.skipEqReg 1 2 1) = false := by decide
theorem test_illformed_shift_right : Instr.wellFormed (.shiftRight 0xA 0xB) = false := by decide
theorem test_illformed_shift_left : Instr.wellFormed (.shiftLeft 4 7) = false := by decide
theorem test_illformed_skip_neq_reg : Instr.wellFormed (.skipNeqReg 1 2 0xF) = false := by decide
theorem test_wellformed_accepts : (Instr.clearScreen 0).wellFormed = true ∧ (Instr.skipEqReg 1 2 0).wellFormed = true ∧
    (Instr.shiftRight 0xA 0).wellFormed = true ∧ (Instr.drawSprite 0xF 0xF 0xF).wellFormed = true := by decide

/-! ### Decoding: words written bit by bit from the encodings of R75 (X = 5, Y = 0xA unless the word says otherwise) -/

/-- `0?E0`, `0?EE` (DEC-1, DEC-2, DEC-3). -/
theorem test_decode_family0 :
    dispatch 0b0000000011100000 = .ok (.clearScreen 0) ∧
    dispatch 0b0000001111100000 = .ok (.clearScreen 3) ∧
    dispatch 0b0000000011101110 = .ok (.ret 0) ∧
    dispatch 0b0000111111101110 = .ok (.ret 0xF) := by decide

/-- `1NNN`, `2NNN`, `3XNN`, `4XNN`, `5XY?` (DEC-6). -/
theorem test_decode_families_1_to_5 :
    dispatch 0b0001101010111100 = .ok (.jump 0xABC) ∧
    dispatch 0b0010010000000001 = .ok (.call 0x401) ∧
    dispatch 0b0011010100101010 = .ok (.skipEqImm 5 0x2A) ∧
    dispatch 0b0100010100101010 = .ok (.skipNeqImm 5 0x2A) ∧
    dispatch 0b0101000100100001 = .ok (.skipEqReg 1 2 1) := by decide

/-- `6XNN`, `7XNN`. -/
theorem test_decode_families_6_7 :
    dispatch 0b0110010100101010 = .ok (.setImm 5 0x2A) ∧
    dispatch 0b0111010100101010 = .ok (.addImm 5 0x2A) := by decide

/-- `8XY0` to `8XY7`, `8XYE` (DEC-9). -/
theorem test_decode_family8 :
    dispatch 0b1000010110100000 = .ok (.setReg 5 0xA) ∧
    dispatch 0b1000010110100001 = .ok (.orReg 5 0xA) ∧
    dispatch 0b1000010110100010 = .ok (.andReg 5 0xA) ∧
    dispatch 0b1000010110100011 = .ok (.xorReg 5 0xA) ∧
    dispatch 0b1000010110100100 = .ok (.addReg 5 0xA) ∧
    dispatch 0b1000010110100101 = .ok (.subReg 5 0xA) ∧
    dispatch 0b1000101010110110 = .ok (.shiftRight 0xA 0xB) ∧
    dispatch 0b1000010110100111 = .ok (.subn 5 0xA) ∧
    dispatch 0b1000010110101110 = .ok (.shiftLeft 5 0xA) := by decide

/-- `9XY?`, `ANNN`, `BNNN`, `CXNN`, `DXYN`. -/
theorem test_decode_families_9_to_D :
    dispatch 0b1001010110100011 = .ok (.skipNeqReg 5 0xA 3) ∧
    dispatch 0b1010110001010001 = .ok (.setIndex 0xC51) ∧
    dispatch 0b1011110001010001 = .ok (.jumpOffset 0xC51) ∧
    dispatch 0b1100010100101010 = .ok (.rand 5 0x2A) ∧
    dispatch 0b1101010110100011 = .ok (.drawSprite 5 0xA 3) := by decide

/-- `EX9E`, `EXA1`. -/
theorem test_decode_familyE :
    dispatch 0b1110010110011110 = .ok (.skipKeyPressed 5) ∧
    dispatch 0b1110010110100001 = .ok (.skipKeyNotPressed 5) := by decide

/-- `FX07` to `FX65` (DEC-12). -/
theorem test_decode_familyF :
    dispatch 0b1111010100000111 = .ok (.getDelay 5) ∧
    dispatch 0b1111010100001010 = .ok (.waitKey 5) ∧
    dispatch 0b1111010100010101 = .ok (.setDelay 5) ∧
    dispatch 0b1111010100011000 = .ok (.setSound 5) ∧
    dispatch 0b1111010100011110 = .ok (.addIndex 5) ∧
    dispatch 0b1111010100101001 = .ok (.fontAddr 5) ∧
    dispatch 0b1111010100110011 = .ok (.storeBcd 5) ∧
    dispatch 0b1111010101010101 = .ok (.regDump 5) ∧
    dispatch 0b1111111101100101 = .ok (.regLoad 0xF) := by decide

/-- Unknown words (DEC-4, 5, 7, 8, 10, 11). -/
theorem test_decode_unknown :
    dispatch 0x0000 = .error (.unknownOpcode 0x0000) ∧ dispatch 0x0123 = .error (.unknownOpcode 0x0123) ∧
    dispatch 0x8128 = .error (.unknownOpcode 0x8128) ∧ dispatch 0x812F = .error (.unknownOpcode 0x812F) ∧
    dispatch 0xE19F = .error (.unknownOpcode 0xE19F) ∧ dispatch 0xF130 = .error (.unknownOpcode 0xF130) := by decide

/-- Example 10 of L1, and a byte left over; then one byte too few. -/
theorem test_decode_bytes : decode [0x60, 0x05, 0x77] = .ok (.setImm 0 5, [0x77]) ∧ decode [0x60] = .error .truncated := by
  decide

/-- The words of R80's column for instructions with every kind of field. -/
theorem test_encode : encode (.jump 0x234) = 0x1234 ∧ encode (.skipEqImm 3 0x2A) = 0x332A ∧ encode (.shiftRight 4 0) = 0x8406 ∧
    encode (.drawSprite 0 1 2) = 0xD012 ∧ encode (.regDump 0xF) = 0xFF55 := by decide

theorem test_decode_table_word : decodeTableWord 16 0x332A = some (.skipEqImm 3 0x2A) ∧ decodeTableWord 16 0 = none := by decide

/-! ### Control flow and stack -/

/-- CF-1, CF-2. -/
theorem test_jump : (run State.reset 0x1ABC).pc = 0xABC ∧ (run State.reset 0x1200).pc = 0x200 := by decide

/-- CF-3. -/
theorem test_call : (run State.reset 0x2400).pc = 0x400 ∧ (run State.reset 0x2400).sp = 1 ∧
    (run State.reset 0x2400).stack[0] = 0x200 := by decide

/-- CF-5, CF-20. -/
theorem test_call_overflow : (run (atSp 16 0x200) 0x2200).fault = some ⟨.stackOverflow, 0x200, 0x2200⟩ ∧
    (run (atSp 16 0x200) 0x2200).pc = 0x200 ∧ (run (atSp 16 0x200) 0x2200).sp = 16 ∧
    (run (atSp 16 0x200) 0x2200).status = .haltStackOverflow := by decide

/-- CF-4, CF-19. -/
theorem test_return : (run (atSp 1 0x300) 0x00EE).pc = 0x302 ∧ (run (atSp 1 0x300) 0x00EE).sp = 0 ∧
    (run (atSp 1 0x300) 0x00EE).stack[0] = 0x300 ∧ (run (atSp 1 0xFFFF) 0x00EE).pc = 0x0001 := by decide

/-- CF-6. -/
theorem test_return_underflow : (run State.reset 0x00EE).fault = some ⟨.stackUnderflow, 0x200, 0x00EE⟩ ∧
    (run State.reset 0x00EE).pc = 0x200 ∧ (run State.reset 0x00EE).status = .haltStackUnderflow := by decide

/-- CF-7, CF-8. -/
theorem test_skip_eq_imm : (run (regs [(3, 0x2A)]) 0x332A).pc = 0x204 ∧ (run (regs [(3, 0x2B)]) 0x332A).pc = 0x202 := by decide

/-- CF-9, CF-10. -/
theorem test_skip_neq_imm : (run (regs [(3, 0x2B)]) 0x432A).pc = 0x204 ∧ (run (regs [(3, 0x2A)]) 0x432A).pc = 0x202 := by decide

/-- CF-11, CF-12. -/
theorem test_skip_eq_reg : (run (regs [(1, 7), (2, 7)]) 0x5120).pc = 0x204 ∧ (run (regs [(1, 9)]) 0x5110).pc = 0x204 ∧
    (run (regs [(1, 7), (2, 8)]) 0x5120).pc = 0x202 := by decide

/-- CF-13, CF-14. -/
theorem test_skip_neq_reg : (run (regs [(1, 7), (2, 8)]) 0x9120).pc = 0x204 ∧ (run (regs [(1, 9)]) 0x9110).pc = 0x202 := by decide

/-- CF-15, CF-16, CF-17. -/
theorem test_jump_offset : (run (regs [(0, 0x10)]) 0xB300).pc = 0x310 ∧ (run (regs [(0, 0xFF)]) 0xBFFF).pc = 0x10FE ∧
    (run (regs [(0, 0x01)]) 0xB200).pc = 0x201 := by decide

/-- CF-18. -/
theorem test_pc_wraps : (run { State.reset with pc := 0xFFFE } 0x6001).pc = 0x0000 ∧ (run { State.reset with pc := 0xFFFE } 0x6001).getV 0 = 1 := by decide

/-! ### ALU -/

/-- SET-1, SET-2. -/
theorem test_set_imm : vals (run (regs []) 0x6005) [0] = [0x05] ∧
    vals (run (regs []) 0x6FAA) [0xF] = [0xAA] := by decide

/-- ADDI-1, ADDI-3. -/
theorem test_add_imm : vals (run (regs [(2, 0xFE), (0xF, 0x44)]) 0x7203) [2, 0xF] = [0x01, 0x44] ∧
    vals (run (regs [(0xF, 0xFF)]) 0x7F01) [0xF] = [0x00] := by decide

/-- MOV-1. -/
theorem test_set_reg : vals (run (regs [(1, 0x33)]) 0x8010) [0, 1] = [0x33, 0x33] := by decide

/-- OR-1. -/
theorem test_or : vals (run (regs [(0, 0x0F), (1, 0xF0), (0xF, 0x77)]) 0x8011) [0, 1, 0xF] = [0xFF, 0xF0, 0x77] := by decide

/-- AND-1. -/
theorem test_and : vals (run (regs [(0, 0x3C), (1, 0x0F), (0xF, 0x77)]) 0x8012) [0, 1, 0xF] = [0x0C, 0x0F, 0x77] := by decide

/-- XOR-1, XOR-2. -/
theorem test_xor : vals (run (regs [(0, 0x3C), (1, 0x0F), (0xF, 0x77)]) 0x8013) [0, 1, 0xF] = [0x33, 0x0F, 0x77] ∧
    vals (run (regs [(5, 0xAB)]) 0x8553) [5] = [0x00] := by decide

/-- ADD-2, ADD-4, ADD-5. -/
theorem test_add_reg : vals (run (regs [(0, 0xFF), (1, 0x01)]) 0x8014) [0, 0xF] = [0x00, 1] ∧
    vals (run (regs [(0, 0x7F), (1, 0x80), (0xF, 1)]) 0x8014) [0, 0xF] = [0xFF, 0] ∧
    vals (run (regs [(2, 0x90)]) 0x8224) [2, 0xF] = [0x20, 1] := by decide

/-- ADD-6, ADD-7: VF as an operand. -/
theorem test_add_reg_vf : vals (run (regs [(0xF, 0xF0), (1, 0x20)]) 0x8F14) [0xF] = [1] ∧
    vals (run (regs [(0, 0xFF), (0xF, 0x01)]) 0x80F4) [0, 0xF] = [0x00, 1] := by decide

/-- SUB-1, SUB-2, SUB-3. -/
theorem test_sub_reg : vals (run (regs [(0, 5), (1, 3)]) 0x8015) [0, 0xF] = [0x02, 1] ∧
    vals (run (regs [(0, 3), (1, 5)]) 0x8015) [0, 0xF] = [0xFE, 0] ∧
    vals (run (regs [(0, 5), (1, 5)]) 0x8015) [0, 0xF] = [0x00, 1] := by decide

/-- SUB-6. -/
theorem test_sub_reg_vf : vals (run (regs [(0xF, 0x10), (1, 0x20)]) 0x8F15) [0xF] = [0] := by decide

/-- SBN-1, SBN-2, SBN-3. -/
theorem test_subn : vals (run (regs [(0, 3), (1, 5)]) 0x8017) [0, 0xF] = [0x02, 1] ∧
    vals (run (regs [(0, 5), (1, 3)]) 0x8017) [0, 0xF] = [0xFE, 0] ∧
    vals (run (regs [(0, 9), (1, 9)]) 0x8017) [0, 0xF] = [0x00, 1] := by decide

/-- SBN-5. -/
theorem test_subn_vf : vals (run (regs [(0xF, 0x01), (1, 0x03)]) 0x8F17) [0xF] = [1] := by decide

/-- SHR-2, SHR-3, SHR-4. -/
theorem test_shift_right : vals (run (regs [(4, 0x04), (0xF, 1)]) 0x8406) [4, 0xF] = [0x02, 0] ∧
    vals (run (regs [(4, 0xFF)]) 0x8406) [4, 0xF] = [0x7F, 1] ∧
    vals (run (regs [(4, 0x01), (7, 0x80)]) 0x8476) [4, 0xF, 7] = [0x00, 1, 0x80] := by decide

/-- SHR-5. -/
theorem test_shift_right_vf : vals (run (regs [(0xF, 0x03)]) 0x8F06) [0xF] = [1] := by decide

/-- SHL-1, SHL-2. -/
theorem test_shift_left : vals (run (regs [(4, 0x81)]) 0x840E) [4, 0xF] = [0x02, 1] ∧
    vals (run (regs [(4, 0x40), (0xF, 1)]) 0x840E) [4, 0xF] = [0x80, 0] := by decide

/-- SHL-4. -/
theorem test_shift_left_vf : vals (run (regs [(0xF, 0x80)]) 0x8F0E) [0xF] = [1] := by decide

/-- RND-1, RND-3: the draw is the byte on rand_in. -/
theorem test_rand : (run (State.reset.supplyRand [0xA7, 0x5A]) 0xC30F).getV 3 = 0x07 ∧
    (run (State.reset.supplyRand [0xA7, 0x5A]) 0xC30F).randIn = [0x5A] ∧ (run (State.reset.supplyRand [0x5A]) 0xC3FF).getV 3 = 0x5A := by decide

/-- RND-2: any draw, here the free value. -/
theorem test_rand_any : (run State.reset 0xC300).getV 3 = 0 := BitVec.and_zero

/-! ### Index register and memory transfer -/

/-- IDX-1. -/
theorem test_set_index : (run State.reset 0xA300).I = 0x300 := by decide

/-- IDX-3, IDX-4. -/
theorem test_add_index : (run { regs [(2, 1)] with I := 0x0FFF } 0xF21E).I = 0x1000 ∧
    (run { regs [(2, 1)] with I := 0xFFFF } 0xF21E).I = 0 ∧ (run { regs [(2, 1)] with I := 0xFFFF } 0xF21E).getV 0xF = 0 := by decide

/-- FNT-1, FNT-3. -/
theorem test_font_addr : (run (regs [(1, 0x0A)]) 0xF129).I = 0x032 ∧ (run (regs [(1, 0xFF)]) 0xF129).I = 0x4FB := by decide

/-- BCD-1, BCD-3. -/
theorem test_store_bcd : bytes (run { regs [(5, 255)] with I := 0x300 } 0xF533) [0x300, 0x301, 0x302] = [2, 5, 5] ∧
    bytes (run { regs [(5, 109)] with I := 0x300 } 0xF533) [0x300, 0x301, 0x302, 0x303] = [1, 0, 9, 0] := by decide

/-- BCD-4. -/
theorem test_store_bcd_wraps : bytes (run { regs [(5, 42)] with I := 0xFFE } 0xF533) [0xFFE, 0xFFF, 0x000] = [0, 4, 2] := by decide

/-- DMP-1. -/
theorem test_reg_dump : bytes (run { regs [(0, 1), (1, 2), (2, 9)] with I := 0x300 } 0xF155) [0x300, 0x301, 0x302] = [1, 2, 0] ∧
    (run { regs [(0, 1), (1, 2), (2, 9)] with I := 0x300 } 0xF155).I = 0x300 := by decide

/-- DMP-3. -/
theorem test_reg_dump_wraps : bytes (run { regs [(0, 0xA), (1, 0xB), (2, 0xC), (3, 0xD)] with I := 0xFFE } 0xF355)
    [0xFFE, 0xFFF, 0x000, 0x001] = [0xA, 0xB, 0xC, 0xD] := by decide

/-- LD-1. -/
theorem test_reg_load : vals (run { withMem State.reset [(0x300, 1), (0x301, 2), (0x302, 3), (0x303, 4)] with I := 0x300 } 0xF265) [0, 1, 2, 3] =
    [1, 2, 3, 0] := by decide

/-- LD-2, LD-3 (FONT default). -/
theorem test_reg_load_all : (run { withMem State.reset [(0x30F, 0x99)] with I := 0x300 } 0xFF65).getV 0xF = 0x99 ∧
    vals (run State.reset 0xF465) [0, 1, 2, 3, 4] = [0xF0, 0x90, 0x90, 0x90, 0xF0] := by decide

/-! ### Display -/

/-- CLS-1. -/
theorem test_clear_screen : lit (run (withPixels State.reset [0, 700, 2047]) 0x00E0) [0, 700, 2047] = [] ∧
    (run (withPixels State.reset [0, 700, 2047]) 0x00E0).redraw = true := by decide

/-- DRW-3, DRW-4. -/
theorem test_draw_sprite_spill : lit (run { withMem (regs [(0, 60)]) [(0x300, 0xFF)] with I := 0x300 } 0xD011) [59, 60, 63, 64, 67, 68] = [60, 63, 64, 67] ∧
    lit (run { withMem (regs [(0, 63), (1, 31)]) [(0x300, 0x01)] with I := 0x300 } 0xD011) [5, 6, 7, 2047] = [6] := by decide

/-- DRW-6, DRW-8, DRW-9. -/
theorem test_draw_sprite_flag : vals (run { withMem (regs [(0xF, 1)]) [(0x300, 0x80)] with I := 0x300 } 0xD011) [0xF] = [0] ∧
    lit (run { withMem (regs [(0xF, 2)]) [(0x300, 0x80)] with I := 0x300 } 0xDF11) [0, 1, 2, 3] = [2] ∧
    vals (run { withMem (withPixels State.reset [0, 7]) [(0x300, 0xFF)] with I := 0x300 } 0xD011) [0xF] = [1] ∧
    lit (run { withMem (withPixels State.reset [0, 7]) [(0x300, 0xFF)] with I := 0x300 } 0xD011) [0, 1, 6, 7, 8] = [1, 6] := by decide

/-! ### Keypad, timers and the tick -/

/-- KEY-1, KEY-2, KEY-5. -/
theorem test_skip_key_pressed : (run { regs [(2, 5)] with keypad := 0x0020 } 0xE29E).pc = 0x204 ∧ (run (regs [(2, 5)]) 0xE29E).pc = 0x202 ∧
    (run { regs [(2, 0x15)] with keypad := 0xFFFF } 0xE29E).pc = 0x202 := by decide

/-- KEY-3, KEY-4, KEY-6. -/
theorem test_skip_key_not_pressed : (run (regs [(2, 5)]) 0xE2A1).pc = 0x204 ∧ (run { regs [(2, 5)] with keypad := 0x0020 } 0xE2A1).pc = 0x202 ∧
    (run { regs [(2, 0x15)] with keypad := 0xFFFF } 0xE2A1).pc = 0x204 := by decide

/-- WK-1. -/
theorem test_wait_key : (run { State.reset with keypad := 0x0208 } 0xF50A).getV 5 = 3 ∧ (run { State.reset with keypad := 0x0208 } 0xF50A).pc = 0x202 ∧
    (run { State.reset with keypad := 0x0208 } 0xF50A).status = .run := by decide

/-- WK-2. -/
theorem test_wait_key_waits : (run { regs [(5, 0x66)] with dt := 5 } 0xF50A).pc = 0x200 ∧ (run { regs [(5, 0x66)] with dt := 5 } 0xF50A).getV 5 = 0x66 ∧
    (run { regs [(5, 0x66)] with dt := 5 } 0xF50A).dt = 4 ∧ (run { regs [(5, 0x66)] with dt := 5 } 0xF50A).status = .waitKey := by decide

/-- GD-1. -/
theorem test_get_delay : (run { State.reset with dt := 4 } 0xF107).getV 1 = 4 ∧ (run { State.reset with dt := 4 } 0xF107).dt = 3 := by decide

/-- SD-1, SD-2. -/
theorem test_set_delay : (run (regs [(0, 5)]) 0xF015).dt = 4 ∧ (run { State.reset with dt := 9 } 0xF015).dt = 0 := by decide

/-- SS-1, SS-2. -/
theorem test_set_sound : (run (regs [(0, 3)]) 0xF018).st = 2 ∧ (run (regs [(0, 3)]) 0xF018).soundEdge = false ∧
    (run (regs [(0, 1)]) 0xF018).st = 0 ∧ (run (regs [(0, 1)]) 0xF018).soundEdge = true := by decide

/-- SS-3, SS-4. -/
theorem test_set_sound_no_edge : (run { State.reset with st := 1 } 0xF018).soundEdge = false ∧ (run { regs [(0, 5)] with st := 1 } 0xF018).st = 4 := by decide

/-- TCK-1, TCK-3. -/
theorem test_tick : (run { State.reset with st := 1, dt := 1 } 0x6000).st = 0 ∧ (run { State.reset with st := 1, dt := 1 } 0x6000).soundEdge = true ∧
    (run { State.reset with dt := 0xFF } 0x6000).dt = 0xFE := by decide

/-- FLT-1. -/
theorem test_unknown_opcode : (run { State.reset with dt := 3 } 0x0000).fault = some ⟨.unknownOpcode, 0x200, 0x0000⟩ ∧
    (run { State.reset with dt := 3 } 0x0000).dt = 2 ∧ (run { State.reset with dt := 3 } 0x0000).status = .haltUnknownOpcode := by decide

/-- FLT-2. -/
theorem test_halted_step : (stateOf (step haltedState)).dt = 2 ∧ (stateOf (step haltedState)).soundEdge = false ∧
    (stateOf (step haltedState)).pc = 0x200 := by decide

/-- R243 and example 10 of L1: the image stands at 0x200, and a fetch reads it high byte first. -/
theorem test_load : ((State.reset.load [0x60, 0x05]).toOption.getD State.reset).fetchWord = 0x6005 := by decide

/-- LDE-1. -/
theorem test_load_too_long : (State.reset.load (List.replicate 3585 0xAA)).toOption = none := by
  rw [State.load, if_pos (by rw [List.length_replicate]; decide)]; rfl

/-- Any table word stored with withFetchWord is the word the next step fetches, from a halted state too. -/
theorem test_next_word_runs : (haltedState.withFetchWord 16 0x332A).fetchWord = 0x332A ∧ (haltedState.withFetchWord 16 0x332A).fault = none := by decide
/-! ### Witnesses: concrete states and operands that meet the hypotheses of each statement that has any

Each is named after its statement, with one part for each clause, at the ends of its range. -/

/-- A fetch of `w` from reset. -/
def fetching (w : Nat) : State := State.reset.withFetchWord 16 w

/-- Each row's own pattern matches the row. -/
theorem test_witness_OpcodeMapSelectsExactly :
    (∀ row ∈ opcodeMap, row.pattern &&& row.mask = row.pattern) ∧
    dispatch 0x00E0 = .ok (.clearScreen 0) ∧ (0x00E0 : Word) &&& opcodeMap[0].mask = opcodeMap[0].pattern := by decide

/-- Words with the ignored field at 0xF. -/
theorem test_witness_IgnoredFieldsChangeNothing :
    (0x0FE0 : Word) &&& 0xF0FF = 0x00E0 ∧ (0x0FEE : Word) &&& 0xF0FF = 0x00EE ∧ (0x512F : Word) &&& 0xF000 = 0x5000 ∧
    (0x912F : Word) &&& 0xF000 = 0x9000 ∧ (0x84F6 : Word) &&& 0xF00F = 0x8006 ∧ (0x84FE : Word) &&& 0xF00F = 0x800E := by
  decide

/-- Every mask and pattern that a `Selects` clause of a statement about an instruction names: a word that it selects. -/
theorem test_witness_Selects :
    (0x1ABC : Word) &&& 0xF000 = 0x1000 ∧ (0x8AB4 : Word) &&& 0xF00F = 0x8004 ∧ (0xFA33 : Word) &&& 0xF0FF = 0xF033 := by
  decide

/-- Unknown words and their neighbours that are not, in each of the four lists (R77). -/
theorem test_witness_UnknownWordsFault :
    unknownWord 0x00E1 = true ∧ unknownWord 0x00E0 = false ∧ unknownWord 0x8008 = true ∧ unknownWord 0x8007 = false ∧
    unknownWord 0x800F = true ∧ unknownWord 0x800E = false ∧ unknownWord 0xE0A2 = true ∧ unknownWord 0xE0A1 = false ∧
    unknownWord 0xF066 = true ∧ unknownWord 0xF065 = false ∧
    State.reset.fault = none ∧ unknownWord State.reset.fetchWord = true := by decide

theorem test_witness_DecodeTakesTwoBytes :
    decode [0x60, 0x05, 0x77] = .ok (.setImm 0 5, [0x77]) ∧
    ((0x6005 : Word).toNat = (0x60 : Byte).toNat * 256 + (0x05 : Byte).toNat ∧ dispatch 0x6005 = .ok (.setImm 0 5)) ∧
    (0x00FF : Word).toNat = (0x00 : Byte).toNat * 256 + (0xFF : Byte).toNat ∧ unknownWord 0x00FF = true := by decide

theorem test_witness_EncodeOfDispatch : dispatch 0x8AB6 = .ok (.shiftRight 0xA 0xB) := by decide

/-- Canonical memory, and an address that is the same as another mod 4096. -/
theorem test_witness_ReadAfterWrite :
    Memory.wf State.reset.mem = true ∧ Memory.wf (withMem State.reset [(0xFFF, 1), (0x1000, 0x44), (0x300, 2)]).mem = true ∧
    0x1000 % 4096 = 0x0000 % 4096 := by decide

/-- I addresses the next instruction; the second state has pc at the end of its range. -/
theorem test_witness_StoreIsFetched :
    (Memory.wf ({ regs [(5, 123)] with I := 0x202 }).mem = true ∧ ({ regs [(5, 123)] with I := 0x202 }).I.toNat % 4096 =
      (({ regs [(5, 123)] with I := 0x202 }).pc.toNat + 2) % 4096) ∧
    ({ State.reset with I := 0, pc := 0xFFFE }).I.toNat % 4096 =
      (({ State.reset with I := 0, pc := 0xFFFE }).pc.toNat + 2) % 4096 ∧
    ∃ t, exec (.storeBcd 5) { regs [(5, 123)] with I := 0x202 } = .next t :=
  ⟨by decide, by decide, _, rfl⟩

theorem test_witness_StepRunsFetchedInstruction :
    ((fetching 0x6005).fault = none ∧
      dispatch (wordOfBytes ((fetching 0x6005).readByte (fetching 0x6005).pc.toNat)
        ((fetching 0x6005).readByte ((fetching 0x6005).pc.toNat + 1))) = .ok (.setImm 0 5)) ∧
    (State.reset.fault = none ∧ dispatch (wordOfBytes (State.reset.readByte State.reset.pc.toNat)
        (State.reset.readByte (State.reset.pc.toNat + 1))) = .error (.unknownOpcode 0)) ∧
    haltedState.fault = some ⟨.unknownOpcode, 0x200, 0x0000⟩ ∧
    ∃ t, exec (.setImm 0 5) { fetching 0x6005 with status := .run } = .next t :=
  ⟨by decide, by decide, rfl, _, rfl⟩

/-- A step that is not halted, a state before its tick, and ports that are neither reset nor step. -/
theorem test_witness_StepEndsWithTick :
    (fetching 0x6005).fault = none ∧ step (fetching 0x6005) = .next (stateOf (step (fetching 0x6005))) ∧
    transact .redrawConsume State.reset = .next (.bit false, State.reset) ∧
    transact (.keyIn 1) State.reset = .next (.done, State.reset.keyIn 1) := ⟨rfl, rfl, rfl, rfl⟩

/-- A step with ST = 1 before its tick, which it enters with ST = 1 or writes; and a halted step. -/
theorem test_witness_SoundEdgeIsOneToZero :
    BeforeTick { fetching 0x6005 with st := 1 } (stateOf (exec (.setImm 0 5) ({ fetching 0x6005 with st := 1 }).beginStep)) ∧
    (stateOf (exec (.setImm 0 5) ({ fetching 0x6005 with st := 1 }).beginStep)).st = 1 ∧
    step haltedState = .next (stateOf (step haltedState)) :=
  ⟨.inl ⟨.setImm 0 5, by decide, rfl⟩, rfl, rfl⟩

/-- A halted step, a waiting step, wait-key with a key down, and another instruction. -/
theorem test_witness_StatusReportsOutcome :
    (stateOf (step haltedState)).fault = haltedState.fault ∧
    ((stateOf (step (fetching 0xF50A))).fault = none ∧ dispatch (fetching 0xF50A).fetchWord = .ok (.waitKey 5) ∧
      (fetching 0xF50A).keypad = 0) ∧
    ((stateOf (step ({ fetching 0xF50A with keypad := 0x8000 }))).fault = none ∧
      ({ fetching 0xF50A with keypad := 0x8000 }).keypad ≠ 0) ∧
    (stateOf (step (fetching 0x6005))).fault = none := by decide

/-- Each cause, and the stack pointers next to it. -/
theorem test_witness_FaultCausesAreExact :
    ((atSp 16 0x200).withFetchWord 16 0x2200).fault = none ∧
    dispatch ((atSp 16 0x200).withFetchWord 16 0x2200).fetchWord = .ok (.call 0x200) ∧
    (atSp 16 0x200).sp.val = 16 ∧ (run (atSp 15 0x200) 0x2200).fault = none ∧ (run (atSp 15 0x200) 0x2200).sp.val = 16 ∧
    dispatch (fetching 0x00EE).fetchWord = .ok (.ret 0) ∧ (fetching 0x00EE).sp.val = 0 ∧
    (run (atSp 1 0x300) 0x00EE).fault = none ∧ unknownWord (fetching 0x0000).fetchWord = true := by decide

theorem test_witness_FaultsArePrecise :
    (fetching 0x00EE).fault = none ∧ step (fetching 0x00EE) = .next (stateOf (step (fetching 0x00EE))) ∧
    (stateOf (step (fetching 0x00EE))).fault = some ⟨.stackUnderflow, 0x200, 0x00EE⟩ := ⟨rfl, rfl, by decide⟩

theorem test_witness_HaltedBlockIsFrozen :
    haltedState.fault = some ⟨.unknownOpcode, 0x200, 0x0000⟩ ∧ PortOp.step ≠ .reset ∧
    transact .step haltedState = .next (.status .haltUnknownOpcode, stateOf (step haltedState)) := ⟨rfl, by decide, rfl⟩

/-- The ends of the two ranges of memory after reset: glyph 0, glyph F, and the bytes after the font. -/
theorem test_witness_ResetState : bytes State.reset [0x000, 0x04F, 0x050, 0xFFF] = [0xF0, 0x80, 0, 0] := by decide

theorem test_witness_ResetAloneHalts : bytes haltedState.portReset [0x200, 0xFFF] = [0, 0] := by decide

/-- Three states that meet the invariant: after reset, after a sound edge, and halted. -/
theorem test_witness_StepKeepsInvariant :
    State.reset.Inv ∧ (fetching 0x6005).Inv ∧ ({ State.reset with soundEdge := true }).Inv ∧ haltedState.Inv ∧
    step (fetching 0x6005) = .next (stateOf (step (fetching 0x6005))) :=
  ⟨⟨rfl, rfl, by decide⟩, ⟨by decide, rfl, by decide⟩, ⟨rfl, rfl, by decide⟩, ⟨rfl, rfl, by decide⟩, rfl⟩

/-- Reset, then key input, then a step. -/
theorem test_witness_ReachableStatesAreInvariant : Reachable (stateOf (step (State.reset.keyIn 0x8001))) :=
  .transact (op := .step) (.transact (op := .keyIn 0x8001) .reset rfl) rfl

/-- An instruction inside each list of writers, and one outside all of them. -/
theorem test_witness_ElementsHaveTheirWriters :
    (∃ t, exec (.setIndex 0x300) State.reset = .next t) ∧ (∃ t, exec (.call 0x300) (atSp 15 0) = .next t) ∧
    (∃ t, exec (.drawSprite 0 0 1) State.reset = .next t) ∧ (∃ t, exec (.regDump 0xF) State.reset = .next t) ∧
    (∃ t, exec (.jump 0x300) State.reset = .next t) ∧ (Instr.jump 0x300).mnemonic ∉ ["call", "return", "wait-key"] ∧
    (Instr.setDelay 0xF).mnemonic ∉ ["set-imm", "add-imm", "set-reg", "or", "and", "xor", "add-reg", "sub-reg", "shift-right",
      "subn", "shift-left", "rand", "draw-sprite", "get-delay", "wait-key", "reg-load"] ∧
    (Instr.drawSprite 0 0 1).mnemonic = "draw-sprite" ∧ (0xE : Nibble) ≠ 0xF :=
  ⟨⟨_, rfl⟩, ⟨_, rfl⟩, ⟨_, rfl⟩, ⟨_, rfl⟩, ⟨_, rfl⟩, by decide, by decide, rfl, by decide⟩

/-- A flag writer with X = 0xF, an instruction that writes no register, and a destination that is not VF. -/
theorem test_witness_VFIsFlagOrDestination :
    (∃ t, exec (.addReg 0xF 1) State.reset = .next t) ∧ (Instr.addReg 0xF 1).mnemonic = "add-reg" ∧
    (Instr.setDelay 0xF).mnemonic ∉ ["set-imm", "add-imm", "set-reg", "or", "and", "xor", "rand", "get-delay", "wait-key", "reg-load"] ∧
    fieldX (encode (.regLoad 0xE)) ≠ 0xF ∧ fieldX (encode (.setImm 0xE 1)) ≠ 0xF :=
  ⟨⟨_, rfl⟩, by decide, by decide, by decide, by decide⟩

/-- Each policy; wait-key with and without a key; a fault that an instruction raises. -/
theorem test_witness_PcPolicies :
    (∃ t, exec (.setImm 0 1) State.reset = .next t) ∧ (∃ t, exec (.skipEqImm 0 1) State.reset = .next t) ∧
    (∃ t, exec (.waitKey 0) State.reset = .next t) ∧ (∃ t, exec (.waitKey 0) (State.reset.keyIn 0x8000) = .next t) ∧
    ∃ t, exec (.ret 0) State.reset = .next t ∧ t.fault ≠ State.reset.fault :=
  ⟨⟨_, rfl⟩, ⟨_, rfl⟩, ⟨_, rfl⟩, ⟨_, rfl⟩, _, rfl, by decide⟩

theorem test_witness_HostOutputsAreNotRead : ∃ t, exec (.drawSprite 0 0 5) State.reset = .next t := ⟨_, rfl⟩

theorem test_witness_CallPushesOrOverflows :
    (atSp 0 0).sp.val < 16 ∧ (atSp 15 0).sp.val < 16 ∧ (atSp 16 0).sp.val = 16 := by decide

theorem test_witness_ReturnPopsOrUnderflows :
    (atSp 1 0xFFFF).sp.val = (0 : Fin 16).val + 1 ∧ (atSp 16 0x300).sp.val = (15 : Fin 16).val + 1 ∧ (atSp 0 0).sp.val = 0 := by
  decide

/-- call from sp = 0 and from sp = 15, then return at once. -/
theorem test_witness_ReturnResumesAfterCall :
    ((atSp 0 0).sp.val < 16 ∧ exec (.call 0x300) (atSp 0 0) = .next (stateOf (exec (.call 0x300) (atSp 0 0))) ∧
      ∃ u, exec (.ret 0) (stateOf (exec (.call 0x300) (atSp 0 0))) = .next u) ∧
    (atSp 15 0).sp.val < 16 ∧ exec (.call 0x300) (atSp 15 0) = .next (stateOf (exec (.call 0x300) (atSp 15 0))) ∧
      ∃ u, exec (.ret 0) (stateOf (exec (.call 0x300) (atSp 15 0))) = .next u :=
  ⟨⟨by decide, rfl, _, rfl⟩, by decide, rfl, _, rfl⟩

/-- Registers that are the destination, VF, both or neither, for the statements about register results. -/
theorem test_witness_register_results :
    (0xE : Nibble) ≠ 0xF ∧ (0x0 : Nibble) ≠ 0xF ∧ (0x1 : Nibble) ≠ 0x0 ∧ ((0x1 : Nibble) ≠ 0x0 ∧ (0x1 : Nibble) ≠ 0xF) := by decide

theorem test_witness_RandMasksADraw :
    (State.reset.supplyRand [0xA7, 0x5A]).randIn = 0xA7 :: [0x5A] ∧ State.reset.randIn = [] ∧ (1 : Nibble) ≠ 0 := by decide

/-- Canonical memory, I at the end of memory, and an address outside the three bytes. -/
theorem test_witness_StoreBcdWritesDigits :
    Memory.wf ({ regs [(5, 255)] with I := 0xFFFF }).mem = true ∧ 0x0002 % 4096 ≠ (0xFFFF + 0) % 4096 ∧
    0x0002 % 4096 ≠ (0xFFFF + 1) % 4096 ∧ 0x0002 % 4096 ≠ (0xFFFF + 2) % 4096 := by decide

theorem test_witness_BcdDigitsDenoteValue :
    Memory.wf ({ regs [(5, 255)] with I := 0xFFF }).mem = true ∧
    ∃ t, exec (.storeBcd 5) { regs [(5, 255)] with I := 0xFFF } = .next t := ⟨rfl, _, rfl⟩

/-- X = 0 and X = 0xF, the last register stored, and an address outside the bytes stored. -/
theorem test_witness_RegDumpStoresRegisters :
    Memory.wf ({ State.reset with I := 0xFFFF }).mem = true ∧ (0 : Nibble).toNat ≤ (0 : Nibble).toNat ∧
    (0xF : Nibble).toNat ≤ (0xF : Nibble).toNat ∧
    ∀ i : Nibble, i.toNat ≤ (0xF : Nibble).toNat → 0x00F % 4096 ≠ (0xFFFF + i.toNat) % 4096 := by decide

theorem test_witness_RegLoadLoadsRegisters :
    (0xF : Nibble).toNat ≤ (0xF : Nibble).toNat ∧ (0 : Nibble).toNat ≤ (0 : Nibble).toNat ∧
    (0 : Nibble).toNat < (1 : Nibble).toNat ∧ (0xE : Nibble).toNat < (0xF : Nibble).toNat := by decide

/-- reg-dump VF, then reg-load VF at once. -/
theorem test_witness_DumpThenLoadRestores :
    Memory.wf ({ regs [(0, 1), (0xF, 2)] with I := 0xFFF }).mem = true ∧
    exec (.regDump 0xF) { regs [(0, 1), (0xF, 2)] with I := 0xFFF } =
      .next (stateOf (exec (.regDump 0xF) { regs [(0, 1), (0xF, 2)] with I := 0xFFF })) ∧
    ∃ u, exec (.regLoad 0xF) (stateOf (exec (.regDump 0xF) { regs [(0, 1), (0xF, 2)] with I := 0xFFF })) = .next u :=
  ⟨rfl, rfl, _, rfl⟩

/-- A sprite of one pixel at I = 0x300, drawn at (0, 0). -/
def dot : State := withMem { State.reset with I := 0x300 } [(0x300, 0x80)]

/-- A pixel that is hit and the pixel beside it, clear before the draw (no collision) or set (collision). -/
theorem test_witness_DrawSpriteTogglesHits :
    dot.SpriteHits 0 0 1 0 ∧ ¬dot.SpriteHits 0 0 1 1 ∧ ¬(∃ k, dot.SpriteHits 0 0 1 k ∧ dot.pixel k = true) ∧
    ∃ k, (withPixels dot [0]).SpriteHits 0 0 1 k ∧ (withPixels dot [0]).pixel k = true := by
  have h0 : dot.SpriteHits 0 0 1 0 := ⟨0, by decide, 0, by decide, by decide, by decide⟩
  have hfb : dot.fb = Vector.replicate 32 0#64 := rfl
  have hp : ∀ k, dot.pixel k = false := by
    intro k
    rw [State.pixel, hfb, fbPixel]
    split <;> simp
  have h1 : ∀ c < 8, ¬(dot.spriteBit 0 c = true ∧ 1 = c % 2048) := by decide
  refine ⟨h0, ?_, fun ⟨k, _, hk⟩ => by simp [hp k] at hk, 0, ⟨0, by decide, 0, by decide, by decide, by decide⟩, by decide⟩
  rintro ⟨r, hr, c, hc, hb, he⟩
  have hr : r = 0 := by omega
  subst hr
  exact h1 c hc ⟨hb, by simpa using he⟩

/-- A dot at X = Y = 0xE, drawn, then a byte stored that is no sprite byte, and the dot drawn again. -/
def dotAgain : State := (stateOf (exec (.drawSprite 0xE 0xE 1) dot)).writeByte 0x301 0xFF

theorem test_witness_DrawTwiceRestores :
    (0xE : Nibble) ≠ 0xF ∧ exec (.drawSprite 0xE 0xE 1) dot = .next (stateOf (exec (.drawSprite 0xE 0xE 1) dot)) ∧
    dotAgain.fb = (stateOf (exec (.drawSprite 0xE 0xE 1) dot)).fb ∧ dotAgain.I = 0x300 ∧ dotAgain.getV 0xE = 0 ∧
    (∀ r < (1 : Nibble).toNat, dotAgain.readByte (0x300 + r) =
      (stateOf (exec (.drawSprite 0xE 0xE 1) dot)).readByte (0x300 + r)) ∧
    ∃ u, exec (.drawSprite 0xE 0xE 1) dotAgain = .next u := ⟨by decide, rfl, rfl, rfl, rfl, by decide, _, rfl⟩

/-- Key 0 down, key 15 alone, no key; then a fetched wait-key without and with a key down. -/
theorem test_witness_WaitKeyTakesLowestKey :
    (State.reset.keyIn 0x8001).keypad.getLsbD 0 = true ∧
    ((State.reset.keyIn 0x8000).keypad.getLsbD 15 = true ∧ ∀ j < 15, (State.reset.keyIn 0x8000).keypad.getLsbD j = false) ∧
    (∀ k < 16, State.reset.keypad.getLsbD k = false) ∧
    ((fetching 0xF50A).fault = none ∧ dispatch (fetching 0xF50A).fetchWord = .ok (.waitKey 5) ∧ (fetching 0xF50A).keypad = 0) ∧
    dispatch ((fetching 0xF50A).keyIn 0x8000).fetchWord = .ok (.waitKey 5) ∧ ((fetching 0xF50A).keyIn 0x8000).keypad ≠ 0 := by
  decide

theorem test_witness_WaitLastsUntilAKey :
    (fetching 0xF50A).fault = none ∧ dispatch (fetching 0xF50A).fetchWord = .ok (.waitKey 5) ∧ (fetching 0xF50A).keypad = 0 := by
  decide

theorem test_witness_TimerTransfers :
    (fetching 0xF107).fault = none ∧ dispatch (fetching 0xF107).fetchWord = .ok (.getDelay 1) ∧
    dispatch (fetching 0xF115).fetchWord = .ok (.setDelay 1) ∧ dispatch (fetching 0xF118).fetchWord = .ok (.setSound 1) := by
  decide

/-- Images of 3584 and 3585 bytes; the first and the last byte; addresses on either side of the image. -/
theorem test_witness_LoadWritesTheImage :
    Memory.wf State.reset.mem = true ∧ (List.replicate 3585 (0 : Byte)).length > 3584 ∧
    (List.replicate 3584 (0 : Byte)).length ≤ 3584 ∧ 3583 < (List.replicate 3584 (0 : Byte)).length ∧
    (0x1FF < 4096 ∧ 0x1FF < 0x200) ∧ 0xFFF < 4096 ∧ 0x200 + (List.replicate 3583 (0 : Byte)).length ≤ 0xFFF := by
  simp only [List.length_replicate]; decide

theorem test_witness_KeypadIsTheHosts : step State.reset = .next (stateOf (step State.reset)) ∧ 15 < 16 := ⟨rfl, by decide⟩

theorem test_witness_DisplayPorts :
    (63 < 64 ∧ 31 < 32) ∧ (0 < 64 ∧ 0 < 32) ∧ (∃ t, exec (.clearScreen 0xF) State.reset = .next t) ∧
    ∃ t, exec (.drawSprite 0xF 0xF 0) State.reset = .next t := ⟨by decide, by decide, ⟨_, rfl⟩, _, rfl⟩

/-- Ports from a halted state and from the state after a sound edge, both of which meet the invariant. -/
theorem test_witness_TransactionsKeepInvariant :
    haltedState.Inv ∧ ({ State.reset with soundEdge := true }).Inv ∧
    transact .reset haltedState = .next (.done, haltedState.portReset) ∧
    transact .step haltedState = .next (.status .haltUnknownOpcode, stateOf (step haltedState)) ∧
    transact (.load [0x60, 0x05]) { State.reset with soundEdge := true } =
      .next (loadReply { State.reset with soundEdge := true } (({ State.reset with soundEdge := true }).load [0x60, 0x05])) :=
  ⟨⟨rfl, rfl, by decide⟩, ⟨rfl, rfl, by decide⟩, rfl, rfl, rfl⟩

end Sys2Proof.Tests.Slice0
end

section
/-!
Proofs of the statements about the scope's conventions (00_scope.md): the fields of a word (R13) and the addressing of
memory (R11).
-/
namespace Sys2Proof.Machine

/-- Settles O1: the fields as numbers, from the laws of the decoder. -/
theorem fieldsAreBitRanges : Obligations.FieldsAreBitRanges := fun w =>
  ⟨toNat_fieldX w, toNat_fieldY w, toNat_fieldN w, toNat_fieldNN w, toNat_fieldNNN w, toNat_family w⟩

/-- The frame of `MemWrite` (R11): a store changes memory only. -/
theorem unchangedBut_writeByte (s : State) (a : Nat) (b : Byte) : UnchangedBut [.mem] s (s.writeByte a b) := by
  intro e he
  cases e with
  | mem => exact absurd (List.mem_singleton_self _) he
  | regs => exact writeByte_getV s a b
  | stack => exact ⟨writeByte_stack s a b, writeByte_sp s a b⟩
  | rand => exact ⟨writeByte_randIn s a b, writeByte_draws s a b⟩
  | index | pc | delay | sound | fb | redraw | keypad | soundEdge | status | fault => rfl

/-- Settles O9: the read through a write, the write's frame, and the canonical form it keeps. -/
theorem readAfterWrite : Obligations.ReadAfterWrite := fun s a b v h =>
  ⟨readByte_writeByte h a v b, unchangedBut_writeByte s a v, wf_writeByte h a v⟩

end Sys2Proof.Machine
end

section
/-!
What an instruction may write, as functions on the syntax: the elements (10_state.md section 1) and the registers (R20, R21).
`exec_frame` and `exec_getV` below hold `exec` to them.
-/
namespace Sys2Proof
open Machine

/-- The elements an instruction may write, on any path. -/
def Instr.writes : Instr → List Element
  | .clearScreen _ => [.fb, .redraw, .pc]
  | .ret _ | .call _ => [.pc, .stack, .status, .fault]
  | .jump _ | .jumpOffset _ | .skipEqImm _ _ | .skipNeqImm _ _ | .skipEqReg _ _ _ | .skipNeqReg _ _ _
  | .skipKeyPressed _ | .skipKeyNotPressed _ => [.pc]
  | .setImm _ _ | .addImm _ _ | .setReg _ _ | .orReg _ _ | .andReg _ _ | .xorReg _ _ | .addReg _ _ | .subReg _ _
  | .shiftRight _ _ | .subn _ _ | .shiftLeft _ _ | .getDelay _ | .regLoad _ => [.regs, .pc]
  | .waitKey _ => [.regs, .pc, .status]
  | .rand _ _ => [.regs, .pc, .rand]
  | .drawSprite _ _ _ => [.fb, .redraw, .regs, .pc]
  | .setIndex _ | .addIndex _ | .fontAddr _ => [.index, .pc]
  | .storeBcd _ | .regDump _ => [.mem, .pc]
  | .setDelay _ => [.delay, .pc]
  | .setSound _ => [.sound, .pc]

/-- The registers an instruction may write: the write ports Vx, VF and V[0..X] of R20. -/
def Instr.WritesReg : Instr → Nibble → Prop
  | .setImm x _, r | .addImm x _, r | .setReg x _, r | .orReg x _, r | .andReg x _, r | .xorReg x _, r | .rand x _, r
  | .getDelay x, r | .waitKey x, r => r = x
  | .addReg x _, r | .subReg x _, r | .shiftRight x _, r | .subn x _, r | .shiftLeft x _, r => r = x ∨ r = vf
  | .drawSprite _ _ _, r => r = vf
  | .regLoad x, r => r.toNat ≤ x.toNat
  | _, _ => False

/-- The column "written by" of the table in 10_state.md section 1, without the host and the tick. -/
def Machine.Element.writers : Element → List String
  | .mem => ["store-bcd", "reg-dump"]
  | .regs => ["set-imm", "add-imm", "set-reg", "or", "and", "xor", "add-reg", "sub-reg", "shift-right", "subn", "shift-left",
      "rand", "draw-sprite", "get-delay", "wait-key", "reg-load"]
  | .index => ["set-index", "add-index", "font-addr"]
  | .pc => opcodeMap.map OpcodeRow.mnemonic
  | .stack | .fault => ["call", "return"]
  | .delay => ["set-delay"]
  | .sound => ["set-sound"]
  | .fb | .redraw => ["clear-screen", "draw-sprite"]
  | .keypad | .soundEdge => []
  | .status => ["call", "return", "wait-key"]
  | .rand => ["rand"]

/-- The six instructions that write VF as a flag (R21). -/
def flagWriters : List String := ["add-reg", "sub-reg", "subn", "shift-right", "shift-left", "draw-sprite"]

/-- The instructions that write VF only where X names it as their destination (R21). -/
def destinationWriters : List String :=
  ["set-imm", "add-imm", "set-reg", "or", "and", "xor", "rand", "get-delay", "wait-key", "reg-load"]

theorem Instr.mnemonic_mem_opcodeMap (i : Instr) : i.mnemonic ∈ opcodeMap.map OpcodeRow.mnemonic := by
  cases i <;> simp [Instr.mnemonic, opcodeMap, opcodeRowsA, opcodeRowsB, opcodeRowsC, opcodeRowsD]

/-- What an instruction writes, the table says that it writes. -/
theorem Instr.mnemonic_mem_writers {i : Instr} {e : Element} (he : e ∈ i.writes) : i.mnemonic ∈ e.writers := by
  cases e with
  | pc => exact i.mnemonic_mem_opcodeMap
  | _ => cases i <;> simp_all [Instr.writes, Instr.mnemonic, Element.writers]

theorem Instr.eq_drawSprite_of_mnemonic {i : Instr} (h : i.mnemonic = "draw-sprite") : ∃ x y n, i = .drawSprite x y n := by
  cases i with
  | drawSprite x y n => exact ⟨x, y, n, rfl⟩
  | _ => simp [Instr.mnemonic] at h

/-- R21: VF is written as a flag, or as the destination that X = 0xF names (for reg-load, that X = 0xF includes). -/
theorem Instr.flag_or_destination_of_writesReg_vf {i : Instr} (h : i.WritesReg vf) :
    i.mnemonic ∈ flagWriters ∨ i.mnemonic ∈ destinationWriters ∧ fieldX (encode i) = vf := by
  cases i with
  | addReg | subReg | subn | shiftRight | shiftLeft | drawSprite => left; simp [Instr.mnemonic, flagWriters]
  | setReg | orReg | andReg | xorReg =>
    exact .inr ⟨by simp [Instr.mnemonic, destinationWriters], (fieldX_wordXYN ..).trans h.symm⟩
  | setImm | addImm | rand | getDelay | waitKey =>
    exact .inr ⟨by simp [Instr.mnemonic, destinationWriters], (fieldX_wordXNN ..).trans h.symm⟩
  | regLoad x =>
    have hx : x = vf := BitVec.eq_of_toNat_eq (Nat.le_antisymm (Nat.le_of_lt_succ x.isLt) h)
    exact .inr ⟨by simp [Instr.mnemonic, destinationWriters], (fieldX_wordXNN ..).trans hx⟩
  | _ => exact h.elim

end Sys2Proof
end

section
/-!
Proofs of the statements about the elements of the state (10_state.md): which instruction writes which element (section 1) and
which register (R20, R21), and that no instruction reads what only the host may read (R34).
-/
namespace Sys2Proof.Machine

/-! ### What an instruction leaves unchanged -/

/-- A frame from the fields: each element that is not named holds the same data. -/
theorem unchangedBut_of_fields {es : List Element} {s t : State}
    (h : (.mem ∉ es → t.mem = s.mem) ∧ (.regs ∉ es → t.v = s.v) ∧ (.index ∉ es → t.I = s.I) ∧ (.pc ∉ es → t.pc = s.pc) ∧
      (.stack ∉ es → t.stack = s.stack ∧ t.sp = s.sp) ∧ (.delay ∉ es → t.dt = s.dt) ∧ (.sound ∉ es → t.st = s.st) ∧
      (.fb ∉ es → t.fb = s.fb) ∧ (.redraw ∉ es → t.redraw = s.redraw) ∧ (.keypad ∉ es → t.keypad = s.keypad) ∧
      (.soundEdge ∉ es → t.soundEdge = s.soundEdge) ∧ (.status ∉ es → t.status = s.status) ∧
      (.fault ∉ es → t.fault = s.fault) ∧ (.rand ∉ es → t.randIn = s.randIn ∧ t.draws = s.draws)) :
    UnchangedBut es s t := by
  obtain ⟨hmem, hregs, _⟩ := h
  intro e he
  cases e with
  | mem => simp [Element.Same, State.readByte, hmem he]
  | regs => simp [Element.Same, State.getV, hregs he]
  | _ => simp_all [Element.Same]

/-- The frame of every instruction: it changes the elements of `Instr.writes` only. -/
theorem exec_frame {i : Instr} {s t : State} (h : exec i s = .next t) : UnchangedBut i.writes s t := by
  apply unchangedBut_of_fields
  cases i with
  | ret => rcases execRet_eq s with ⟨_, he⟩ | ⟨_, he⟩ <;> cases he.symm.trans h <;> simp [Instr.writes]
  | call nnn => rcases execCall_eq nnn s with ⟨_, he⟩ | ⟨_, he⟩ <;> cases he.symm.trans h <;> simp [Instr.writes]
  | waitKey x =>
    rcases execWaitKey_eq x s with ⟨_, _, he⟩ | ⟨_, he⟩ <;> cases he.symm.trans h <;> simp [Instr.writes]
  | addReg | subReg | shiftRight | subn | shiftLeft => cases h; simp [Instr.writes, State.setVThenFlag]
  | regDump => cases h; rw [dumpRegs_eq]; simp [Instr.writes]
  | regLoad => cases h; rw [loadRegs_eq]; simp [Instr.writes]
  | _ => cases h; simp [Instr.writes]

/-- An element is unchanged by every instruction that the table does not name among its writers. -/
theorem exec_same {i : Instr} {s t : State} (h : exec i s = .next t) (e : Element) (hi : i.mnemonic ∉ e.writers) :
    e.Same s t :=
  exec_frame h e fun he => hi (Instr.mnemonic_mem_writers he)

/-- The frame of every instruction inside the register file: it changes the registers of `Instr.WritesReg` only. -/
theorem exec_getV {i : Instr} {s t : State} (h : exec i s = .next t) {r : Nibble} (hr : ¬i.WritesReg r) :
    t.getV r = s.getV r := by
  cases i with
  | setImm | addImm | setReg | orReg | andReg | xorReg | rand | getDelay | drawSprite => cases h; exact getV_setV_ne hr
  | addReg | subReg | shiftRight | subn | shiftLeft =>
    obtain ⟨hx, hvf⟩ := not_or.1 hr
    cases h
    simp [hx, hvf]
  | waitKey x =>
    rcases execWaitKey_eq x s with ⟨_, _, he⟩ | ⟨_, he⟩ <;> cases he.symm.trans h
    · exact getV_setV_ne hr
    · rfl
  | regLoad x =>
    have hx : x.toNat + 1 ≤ 16 := x.isLt
    cases h
    rw [advance_getV, getV_loadRegs s hx, if_neg fun hlt => hr (Nat.le_of_lt_succ hlt)]
  | _ => exact exec_frame h .regs (by simp [Instr.writes]) r

/-- Settles O25: the frame of every instruction, read by the table's writers; for draw-sprite, by its registers. -/
theorem elementsHaveTheirWriters : Obligations.ElementsHaveTheirWriters := by
  intro i s t h
  have same := exec_same h
  have draw : i.mnemonic = "draw-sprite" → ∀ r, r ≠ 0xF → t.getV r = s.getV r := by
    intro hi r hr
    obtain ⟨x, y, n, rfl⟩ := Instr.eq_drawSprite_of_mnemonic hi
    exact exec_getV h hr
  exact ⟨same .regs, draw, same .index, fun hi => and_assoc.1 ⟨same .stack hi, same .fault hi⟩,
    fun hi => ⟨same .fb hi, same .redraw hi⟩, same .mem, fun hi => same .delay (mt List.mem_singleton.1 hi),
    fun hi => same .sound (mt List.mem_singleton.1 hi), fun hi => same .rand (mt List.mem_singleton.1 hi), same .status,
    same .keypad List.not_mem_nil, same .soundEdge List.not_mem_nil⟩

/-! ### VF as a flag (R21, R131) -/

theorem flagByte_eq_zero_or_one (f : Bool) : flagByte f = 0 ∨ flagByte f = 1 := by
  cases f <;> simp [flagByte]

/-- A flag writer writes VF last, so VF ends as a flag whatever the destination. -/
theorem exec_flag {i : Instr} {s t : State} (h : exec i s = .next t) (hi : i.mnemonic ∈ flagWriters) :
    ∃ f, t.getV vf = flagByte f := by
  cases i with
  | addReg | subReg | subn | shiftRight | shiftLeft => cases h; exact ⟨_, (setVThenFlag_getV ..).trans (if_pos rfl)⟩
  | drawSprite => cases h; exact ⟨_, getV_setV_same ..⟩
  | _ => simp [Instr.mnemonic, flagWriters] at hi

/-- Settles O26: a flag writer leaves a flag in VF, and any other writer of VF names it as its destination. -/
theorem vfIsFlagOrDestination : Obligations.VFIsFlagOrDestination := by
  intro i s t h
  constructor
  · intro hi
    obtain ⟨f, hf⟩ := exec_flag h hi
    exact hf ▸ flagByte_eq_zero_or_one f
  · intro hflag hdest
    refine exec_getV h fun hw => ?_
    obtain hi | ⟨hi, hx⟩ := Instr.flag_or_destination_of_writesReg_vf hw
    · exact hflag hi
    · exact hdest.elim (· hi) (· hx)

/-! ### What no instruction reads (R34) -/

/-- A state with other values in the elements that only the host reads. -/
def State.withOutputs (s : State) (r e : Bool) (q : Status) (f : Option FaultRecord) : State :=
  { s with redraw := r, soundEdge := e, status := q, fault := f }

section
variable (s : State) (r e : Bool) (q : Status) (f : Option FaultRecord)

theorem withOutputs_firstKey : (s.withOutputs r e q f).firstKey = s.firstKey := rfl

theorem withOutputs_dumpRegs (k : Nat) : (s.withOutputs r e q f).dumpRegs k = (s.dumpRegs k).withOutputs r e q f := by
  induction k with
  | zero => rfl
  | succ k ih => rw [State.dumpRegs, ih]; rfl

theorem withOutputs_loadRegs (k : Nat) : (s.withOutputs r e q f).loadRegs k = (s.loadRegs k).withOutputs r e q f := by
  induction k with
  | zero => rfl
  | succ k ih => rw [State.loadRegs, ih]; rfl

/-- Other outputs before an instruction change nothing after it but the outputs. The branches of return, call and wait-key are
chosen by sp and the keypad, which both states share. -/
theorem exec_withOutputs {i : Instr} {t : State} (h : exec i s = .next t) :
    ∃ r' e' q' f', exec i (s.withOutputs r e q f) = .next (t.withOutputs r' e' q' f') := by
  cases i with
  | ret =>
    rcases execRet_eq s with ⟨hsp, he⟩ | ⟨hsp, he⟩ <;> cases he.symm.trans h
    · exact ⟨_, _, _, _, by rw [exec, execRet, pop_empty (s := s.withOutputs r e q f) hsp]; rfl⟩
    · exact ⟨_, _, _, _, by rw [exec, execRet, pop_of_pos (s := s.withOutputs r e q f) hsp]; rfl⟩
  | call nnn =>
    rcases execCall_eq nnn s with ⟨hsp, he⟩ | ⟨hsp, he⟩ <;> cases he.symm.trans h
    · exact ⟨_, _, _, _, by rw [exec, execCall, push_full (s := s.withOutputs r e q f) hsp]; rfl⟩
    · exact ⟨_, _, _, _, by rw [exec, execCall, push_of_lt (s := s.withOutputs r e q f) hsp]; rfl⟩
  | waitKey x =>
    rcases execWaitKey_eq x s with ⟨k, hk, he⟩ | ⟨hk, he⟩ <;> cases he.symm.trans h <;>
      exact ⟨_, _, _, _, by rw [exec, execWaitKey, withOutputs_firstKey, hk]; rfl⟩
  | regDump => cases h; exact ⟨_, _, _, _, by rw [exec, execRegDump, withOutputs_dumpRegs]; rfl⟩
  | regLoad => cases h; exact ⟨_, _, _, _, by rw [exec, execRegLoad, withOutputs_loadRegs]; rfl⟩
  | _ => cases h; exact ⟨_, _, _, _, rfl⟩

end

/-- Settles O28: `exec_withOutputs` for every instruction. -/
theorem hostOutputsAreNotRead : Obligations.HostOutputsAreNotRead :=
  fun _ s _ r e q f => exec_withOutputs s r e q f

end Sys2Proof.Machine
end

section
/-!
Proofs of the statements about the fetch (20_memory.md): its byte order (R51, R53) and its coherence with stores (R62).
-/
namespace Sys2Proof.Machine

/-- The fetched word as a number, its high byte at pc (R51). -/
theorem toNat_fetchWord (s : State) :
    s.fetchWord.toNat = (s.readByte s.pc.toNat).toNat * 256 + (s.readByte (s.pc.toNat + 1)).toNat :=
  toNat_wordOfBytes _ _

/-- Settles O10: the fetched word as a number, each address reduced by the read itself (R53). -/
theorem fetchIsBigEndian : Obligations.FetchIsBigEndian := fun s => by
  rw [readByte_mod, readByte_mod, toNat_fetchWord]

/-! ### The digits of store-bcd (R163) -/

theorem toNat_bcdHundreds (v : Byte) : (bcdHundreds v).toNat = v.toNat / 100 :=
  Nat.mod_eq_of_lt (by have := v.isLt; omega)

theorem toNat_bcdTens (v : Byte) : (bcdTens v).toNat = v.toNat / 10 % 10 :=
  Nat.mod_eq_of_lt (by omega)

/-- What memory reads as after store-bcd: the three digits at I, I + 1 and I + 2 mod 4096, and what was there before elsewhere. -/
theorem exec_storeBcd_readByte {x : Nibble} {s t : State} (h : Memory.wf s.mem = true)
    (ht : exec (.storeBcd x) s = .next t) (a : Nat) :
    t.readByte a =
      if a % 4096 = (s.I.toNat + 2) % 4096 then bcdUnits (s.getV x)
      else if a % 4096 = (s.I.toNat + 1) % 4096 then bcdTens (s.getV x)
      else if a % 4096 = s.I.toNat % 4096 then bcdHundreds (s.getV x)
      else s.readByte a := by
  have h₁ := wf_writeByte h (s.indexed 0) (bcdHundreds (s.getV x))
  have h₂ := wf_writeByte h₁ (s.indexed 1) (bcdTens (s.getV x))
  cases ht
  rw [advance_readByte, readByte_writeByte h₂, readByte_writeByte h₁, readByte_writeByte h]
  rfl

theorem exec_storeBcd_pc {x : Nibble} {s t : State} (ht : exec (.storeBcd x) s = .next t) : t.pc = s.pc + 2 := by
  cases ht
  rfl

/-- Settles O11: with I at the next instruction, the fetch reads the first two digits, at I and I + 1; 4096 divides 2^16, so
this holds where pc wraps too. -/
theorem storeIsFetched : Obligations.StoreIsFetched := by
  intro x s t hwf hI ht
  have hpc : t.pc.toNat = (s.pc.toNat + 2) % 65536 := by rw [exec_storeBcd_pc ht]; exact BitVec.toNat_add _ _
  have hhi : t.readByte t.pc.toNat = bcdHundreds (s.getV x) := by
    rw [exec_storeBcd_readByte hwf ht, if_neg (by omega), if_neg (by omega), if_pos (by omega)]
  have hlo : t.readByte (t.pc.toNat + 1) = bcdTens (s.getV x) := by
    rw [exec_storeBcd_readByte hwf ht, if_neg (by omega), if_pos (by omega)]
  rw [toNat_fetchWord, hhi, hlo, toNat_bcdHundreds, toNat_bcdTens]

end Sys2Proof.Machine
end

section
/-!
Proofs of the statements about decoding (30_encoding.md): `dispatch` and `encode` determine each other (R75, R80), an
instruction is two bytes (R71), and the words that are none (R77).
-/
namespace Sys2Proof
open Machine

/-! ### Dispatch after encode (R75, R80) -/

/-- The fields of an assembled word select the instruction it was assembled from, by the form of its word (R73) and its family. -/
theorem dispatch_encode (i : Instr) : dispatch (encode i) = .ok i := by
  cases i with
  | jump | call | setIndex | jumpOffset => simp [encode, dispatch, family_wordNNN, fieldNNN_wordNNN]
  | skipEqImm | skipNeqImm | setImm | addImm | rand =>
    simp [encode, dispatch, family_wordXNN, fieldX_wordXNN, fieldNN_wordXNN]
  | skipEqReg | skipNeqReg | drawSprite =>
    simp [encode, dispatch, family_wordXYN, fieldX_wordXYN, fieldY_wordXYN, fieldN_wordXYN]
  | clearScreen | ret =>
    simp [encode, dispatch, dispatchFamily0, family_wordXNN, fieldX_wordXNN, fieldNN_wordXNN]
  | skipKeyPressed | skipKeyNotPressed =>
    simp [encode, dispatch, dispatchFamilyE, family_wordXNN, fieldX_wordXNN, fieldNN_wordXNN]
  | setReg | orReg | andReg | xorReg | addReg | subReg | shiftRight | subn | shiftLeft =>
    simp [encode, dispatch, dispatchFamily8, family_wordXYN, fieldX_wordXYN, fieldY_wordXYN, fieldN_wordXYN]
  | _ => simp [encode, dispatch, dispatchFamilyF, family_wordXNN, fieldX_wordXNN, fieldNN_wordXNN]

/-! ### Two bytes (R51, R71) -/

theorem decode_of_dispatch_ok {hi lo : Byte} {i : Instr} (h : dispatch (wordOfBytes hi lo) = .ok i) (rest : List Byte) :
    decode (hi :: lo :: rest) = .ok (i, rest) := by
  rw [decode, h]

theorem decode_of_dispatch_error {hi lo : Byte} {e : DecodeError} (h : dispatch (wordOfBytes hi lo) = .error e)
    (rest : List Byte) : decode (hi :: lo :: rest) = .error e := by
  rw [decode, h]

/-- Settles O6: the two bytes, put together, are the instruction's word, which dispatches to it. -/
theorem decodeOfEncode : Obligations.DecodeOfEncode := fun i =>
  decode_of_dispatch_ok ((wordOfBytes_bytes (encode i)).symm ▸ dispatch_encode i)

/-! ### A word with known fields is assembled from them -/

theorem wordNNN_of_family {w : Word} {f : Nibble} (hf : family w = f) : wordNNN f (fieldNNN w) = w := by
  rw [← hf, wordNNN_fields]

theorem wordXNN_of_fields {w : Word} {f : Nibble} {c : Byte} (hf : family w = f) (hc : fieldNN w = c) :
    wordXNN f (fieldX w) c = w := by
  rw [← hf, ← hc, wordXNN_fields]

theorem wordXYN_of_fields {w : Word} {f n : Nibble} (hf : family w = f) (hn : fieldN w = n) :
    wordXYN f (fieldX w) (fieldY w) n = w := by
  rw [← hf, ← hn, wordXYN_fields]

/-! ### The unknown words by family (R77) -/

theorem unknownWord_of_family0 {w : Word} (h : family w = 0x0) : unknownWord w = !([0xE0, 0xEE].contains (fieldNN w)) := by
  simp [unknownWord, h]

theorem unknownWord_of_family8 {w : Word} (h : family w = 0x8) :
    unknownWord w = [0x8, 0x9, 0xA, 0xB, 0xC, 0xD, 0xF].contains (fieldN w) := by
  simp [unknownWord, h]

theorem unknownWord_of_familyE {w : Word} (h : family w = 0xE) : unknownWord w = !([0x9E, 0xA1].contains (fieldNN w)) := by
  simp [unknownWord, h]

theorem unknownWord_of_familyF {w : Word} (h : family w = 0xF) :
    unknownWord w = !([0x07, 0x0A, 0x15, 0x18, 0x1E, 0x29, 0x33, 0x55, 0x65].contains (fieldNN w)) := by
  simp [unknownWord, h]

/-- The families without a second level hold no unknown word. -/
theorem unknownWord_of_family {w : Word} {f : Nibble} (h : family w = f) (hf : f ∉ [0x0, 0x8, 0xE, 0xF] := by decide) :
    unknownWord w = false := by
  simp_all [unknownWord]

/-! ### What dispatch answers (R75, R77) -/

/-- What an answer of dispatch says of the word `w`: an instruction is the one `w` stands for, and an error names `w`, a word of
the four lists. `dispatch_answer` says that dispatch answers so. -/
def DispatchAnswer (w : Word) : Except DecodeError Instr → Prop
  | .ok i => unknownWord w = false ∧ encode i = w
  | .error e => unknownWord w = true ∧ e = .unknownOpcode w

theorem dispatchFamily0_answer {w : Word} (h : family w = 0x0) : DispatchAnswer w (dispatchFamily0 w) := by
  unfold dispatchFamily0
  split
  case h_3 => exact ⟨by simp_all [unknownWord_of_family0 h], rfl⟩
  all_goals exact ⟨by simp_all [unknownWord_of_family0 h], wordXNN_of_fields h ‹_›⟩

theorem dispatchFamily8_answer {w : Word} (h : family w = 0x8) : DispatchAnswer w (dispatchFamily8 w) := by
  unfold dispatchFamily8
  split
  case h_10 => exact ⟨by have := family_cases (fieldN w); simp_all [unknownWord_of_family8 h], rfl⟩
  all_goals exact ⟨by simp_all [unknownWord_of_family8 h], wordXYN_of_fields h ‹_›⟩

theorem dispatchFamilyE_answer {w : Word} (h : family w = 0xE) : DispatchAnswer w (dispatchFamilyE w) := by
  unfold dispatchFamilyE
  split
  case h_3 => exact ⟨by simp_all [unknownWord_of_familyE h], rfl⟩
  all_goals exact ⟨by simp_all [unknownWord_of_familyE h], wordXNN_of_fields h ‹_›⟩

theorem dispatchFamilyF_answer {w : Word} (h : family w = 0xF) : DispatchAnswer w (dispatchFamilyF w) := by
  unfold dispatchFamilyF
  split
  case h_10 => exact ⟨by simp_all [unknownWord_of_familyF h], rfl⟩
  all_goals exact ⟨by simp_all [unknownWord_of_familyF h], wordXNN_of_fields h ‹_›⟩

/-- Every answer of dispatch, by the family: four have a second level, and of the others every word is an instruction. -/
theorem dispatch_answer (w : Word) : DispatchAnswer w (dispatch w) := by
  rcases family_cases (family w) with h | h | h | h | h | h | h | h | h | h | h | h | h | h | h | h
  · exact dispatch_of_family0 h ▸ dispatchFamily0_answer h
  · exact dispatch_of_family1 h ▸ ⟨unknownWord_of_family h, wordNNN_of_family h⟩
  · exact dispatch_of_family2 h ▸ ⟨unknownWord_of_family h, wordNNN_of_family h⟩
  · exact dispatch_of_family3 h ▸ ⟨unknownWord_of_family h, wordXNN_of_fields h rfl⟩
  · exact dispatch_of_family4 h ▸ ⟨unknownWord_of_family h, wordXNN_of_fields h rfl⟩
  · exact dispatch_of_family5 h ▸ ⟨unknownWord_of_family h, wordXYN_of_fields h rfl⟩
  · exact dispatch_of_family6 h ▸ ⟨unknownWord_of_family h, wordXNN_of_fields h rfl⟩
  · exact dispatch_of_family7 h ▸ ⟨unknownWord_of_family h, wordXNN_of_fields h rfl⟩
  · exact dispatch_of_family8 h ▸ dispatchFamily8_answer h
  · exact dispatch_of_family9 h ▸ ⟨unknownWord_of_family h, wordXYN_of_fields h rfl⟩
  · exact dispatch_of_familyA h ▸ ⟨unknownWord_of_family h, wordNNN_of_family h⟩
  · exact dispatch_of_familyB h ▸ ⟨unknownWord_of_family h, wordNNN_of_family h⟩
  · exact dispatch_of_familyC h ▸ ⟨unknownWord_of_family h, wordXNN_of_fields h rfl⟩
  · exact dispatch_of_familyD h ▸ ⟨unknownWord_of_family h, wordXYN_of_fields h rfl⟩
  · exact dispatch_of_familyE h ▸ dispatchFamilyE_answer h
  · exact dispatch_of_familyF h ▸ dispatchFamilyF_answer h

/-- An instruction is answered for its word only. -/
theorem dispatch_ok_iff {w : Word} {i : Instr} : dispatch w = .ok i ↔ encode i = w := by
  refine ⟨fun h => ?_, fun h => h ▸ dispatch_encode i⟩
  have ha := dispatch_answer w
  rw [h] at ha
  exact ha.2

/-- A word of the four lists is an unknown opcode, and every other word is an instruction. -/
theorem dispatch_cases (w : Word) :
    (unknownWord w = true ∧ dispatch w = .error (.unknownOpcode w)) ∨
      (unknownWord w = false ∧ ∃ i, dispatch w = .ok i) := by
  have h := dispatch_answer w
  cases hd : dispatch w with
  | ok i =>
    rw [hd] at h
    exact .inr ⟨h.1, i, rfl⟩
  | error e =>
    rw [hd] at h
    obtain ⟨hu, rfl⟩ := h
    exact .inl ⟨hu, rfl⟩

theorem dispatch_error_iff (w : Word) : dispatch w = .error (.unknownOpcode w) ↔ unknownWord w = true := by
  rcases dispatch_cases w with ⟨hu, hd⟩ | ⟨hu, i, hd⟩ <;> simp [hu, hd]

theorem unknownWord_eq_false_iff (w : Word) : unknownWord w = false ↔ ∃ i, dispatch w = .ok i := by
  rcases dispatch_cases w with ⟨hu, hd⟩ | ⟨hu, i, hd⟩ <;> simp [hu, hd]

/-- Settles O7: a word that dispatches to an instruction is the instruction's word. -/
theorem encodeOfDispatch : Obligations.EncodeOfDispatch := fun _ _ => dispatch_ok_iff.1

/-- Settles O8: each word is closed, and dispatch evaluates. -/
theorem specWordsDispatch : Obligations.SpecWordsDispatch := by
  unfold Obligations.SpecWordsDispatch
  decide

/-- Decoding takes two bytes and answers the rest. -/
theorem length_of_decode {bs rest : List Byte} {i : Instr} (h : decode bs = .ok (i, rest)) :
    bs.length = rest.length + 2 := by
  match bs with
  | [] | [_] => cases h
  | hi :: lo :: tail =>
    rcases dispatch_cases (wordOfBytes hi lo) with ⟨_, hd⟩ | ⟨_, _, hd⟩
    · rw [decode_of_dispatch_error hd] at h; cases h
    · rw [decode_of_dispatch_ok hd] at h; cases h; rfl

/-- Settles O5: the two bytes are the word, by its number; dispatch answers an instruction or the unknown opcode. -/
theorem decodeTakesTwoBytes : Obligations.DecodeTakesTwoBytes := by
  refine ⟨fun _ _ _ => length_of_decode, fun hi lo rest w hw => ?_, fun _ => ⟨rfl, rfl⟩⟩
  obtain rfl : w = wordOfBytes hi lo := BitVec.eq_of_toNat_eq (hw.trans (toNat_wordOfBytes hi lo).symm)
  exact ⟨fun _ h => decode_of_dispatch_ok h rest, fun h => decode_of_dispatch_error ((dispatch_error_iff _).2 h) rest⟩

end Sys2Proof
end

section
/-!
Proofs of the statements about the opcode map (30_encoding.md): a word selects a row of R75's table exactly when it is the word
of the row's instruction, so that masks and dispatch agree, and ignored fields (R76) change nothing.
-/
namespace Sys2Proof
open Machine

/-! ### A mask and match as an assembled word (R73, R75) -/

theorem mask_family_iff_wordNNN (f : Nibble) (w : Word) : w &&& 0xF000 = wordNNN f 0 ↔ wordNNN f (fieldNNN w) = w := by
  constructor <;> intro h
  · exact wordNNN_of_family ((family_of_mask h).trans (family_wordNNN f 0))
  · rw [← h, and_mask_family, family_wordNNN]

theorem mask_family_iff_wordXNN (f : Nibble) (w : Word) : w &&& 0xF000 = wordNNN f 0 ↔ wordXNN f (fieldX w) (fieldNN w) = w := by
  constructor <;> intro h
  · exact wordXNN_of_fields ((family_of_mask h).trans (family_wordNNN f 0)) rfl
  · rw [← h, and_mask_family, family_wordXNN]

theorem mask_family_iff_wordXYN (f : Nibble) (w : Word) :
    w &&& 0xF000 = wordNNN f 0 ↔ wordXYN f (fieldX w) (fieldY w) (fieldN w) = w := by
  constructor <;> intro h
  · exact wordXYN_of_fields ((family_of_mask h).trans (family_wordNNN f 0)) rfl
  · rw [← h, and_mask_family, family_wordXYN]

theorem mask_byte_iff_wordXNN (f : Nibble) (c : Byte) (w : Word) : w &&& 0xF0FF = wordXNN f 0 c ↔ wordXNN f (fieldX w) c = w := by
  constructor <;> intro h
  · obtain ⟨hf, hc⟩ := fields_of_mask_byte h
    exact wordXNN_of_fields (hf.trans (family_wordXNN ..)) (hc.trans (fieldNN_wordXNN ..))
  · rw [← h, and_mask_byte, family_wordXNN, fieldNN_wordXNN]

theorem mask_nibble_iff_wordXYN (f n : Nibble) (w : Word) :
    w &&& 0xF00F = wordXYN f 0 0 n ↔ wordXYN f (fieldX w) (fieldY w) n = w := by
  constructor <;> intro h
  · obtain ⟨hf, hn⟩ := fields_of_mask_nibble h
    exact wordXYN_of_fields (hf.trans (family_wordXYN ..)) (hn.trans (fieldN_wordXYN ..))
  · rw [← h, and_mask_nibble, family_wordXYN, fieldN_wordXYN]

/-! ### The 34 rows -/

/-- A row's mask and match select the words that its instruction, with its fields, assembles to. -/
def OpcodeRow.Exact (row : OpcodeRow) : Prop :=
  ∀ w, w &&& row.mask = row.pattern ↔ encode (row.read w) = w

theorem opcodeRowsA_exact : ∀ row ∈ opcodeRowsA, row.Exact := by
  simp only [opcodeRowsA, List.forall_mem_cons]
  exact ⟨mask_byte_iff_wordXNN 0x0 0xE0, mask_byte_iff_wordXNN 0x0 0xEE, mask_family_iff_wordNNN 0x1,
    mask_family_iff_wordNNN 0x2, mask_family_iff_wordXNN 0x3, mask_family_iff_wordXNN 0x4,
    mask_family_iff_wordXYN 0x5, mask_family_iff_wordXNN 0x6, mask_family_iff_wordXNN 0x7, List.forall_mem_nil _⟩

theorem opcodeRowsB_exact : ∀ row ∈ opcodeRowsB, row.Exact := by
  simp only [opcodeRowsB, List.forall_mem_cons]
  exact ⟨mask_nibble_iff_wordXYN 0x8 0x0, mask_nibble_iff_wordXYN 0x8 0x1, mask_nibble_iff_wordXYN 0x8 0x2,
    mask_nibble_iff_wordXYN 0x8 0x3, mask_nibble_iff_wordXYN 0x8 0x4, mask_nibble_iff_wordXYN 0x8 0x5,
    mask_nibble_iff_wordXYN 0x8 0x6, mask_nibble_iff_wordXYN 0x8 0x7, mask_nibble_iff_wordXYN 0x8 0xE,
    List.forall_mem_nil _⟩

theorem opcodeRowsC_exact : ∀ row ∈ opcodeRowsC, row.Exact := by
  simp only [opcodeRowsC, List.forall_mem_cons]
  exact ⟨mask_family_iff_wordXYN 0x9, mask_family_iff_wordNNN 0xA, mask_family_iff_wordNNN 0xB,
    mask_family_iff_wordXNN 0xC, mask_family_iff_wordXYN 0xD, mask_byte_iff_wordXNN 0xE 0x9E,
    mask_byte_iff_wordXNN 0xE 0xA1, List.forall_mem_nil _⟩

theorem opcodeRowsD_exact : ∀ row ∈ opcodeRowsD, row.Exact := by
  simp only [opcodeRowsD, List.forall_mem_cons]
  exact ⟨mask_byte_iff_wordXNN 0xF 0x07, mask_byte_iff_wordXNN 0xF 0x0A, mask_byte_iff_wordXNN 0xF 0x15,
    mask_byte_iff_wordXNN 0xF 0x18, mask_byte_iff_wordXNN 0xF 0x1E, mask_byte_iff_wordXNN 0xF 0x29,
    mask_byte_iff_wordXNN 0xF 0x33, mask_byte_iff_wordXNN 0xF 0x55, mask_byte_iff_wordXNN 0xF 0x65,
    List.forall_mem_nil _⟩

theorem opcodeMap_exact {row : OpcodeRow} (h : row ∈ opcodeMap) : row.Exact := by
  simp only [opcodeMap, List.mem_append] at h
  rcases h with ((h | h) | h) | h
  · exact opcodeRowsA_exact row h
  · exact opcodeRowsB_exact row h
  · exact opcodeRowsC_exact row h
  · exact opcodeRowsD_exact row h

/-- Every row reads an instruction of its own mnemonic: the two columns are one. -/
theorem mnemonic_read {row : OpcodeRow} (h : row ∈ opcodeMap) (w : Word) : (row.read w).mnemonic = row.mnemonic := by
  have hcol : opcodeMap.map (fun row => (row.read w).mnemonic) = opcodeMap.map OpcodeRow.mnemonic := rfl
  exact List.map_inj_left.1 hcol row h

theorem opcodeMap_select {row : OpcodeRow} (h : row ∈ opcodeMap) (w : Word) :
    w &&& row.mask = row.pattern ↔ dispatch w = .ok (row.read w) :=
  (opcodeMap_exact h w).trans dispatch_ok_iff.symm

theorem mnemonic_injective : Function.Injective fun k : Fin opcodeMap.length => opcodeMap[k].mnemonic := by decide

/-- A word that two rows match dispatches to an instruction of both, so the rows have one mnemonic. -/
theorem opcodeMap_index_unique {w : Word} {j k : Fin opcodeMap.length}
    (hj : w &&& opcodeMap[j].mask = opcodeMap[j].pattern) (hk : w &&& opcodeMap[k].mask = opcodeMap[k].pattern) :
    j = k := by
  have hjm : opcodeMap[j] ∈ opcodeMap := List.getElem_mem _
  have hkm : opcodeMap[k] ∈ opcodeMap := List.getElem_mem _
  have hd := ((opcodeMap_select hjm w).1 hj).symm.trans ((opcodeMap_select hkm w).1 hk)
  have hm : opcodeMap[j].mnemonic = opcodeMap[k].mnemonic := by
    rw [← mnemonic_read hjm w, ← mnemonic_read hkm w, Except.ok.inj hd]
  exact mnemonic_injective hm

/-- Settles O2: the rows by their words, and one mnemonic for each. -/
theorem opcodeMapSelectsExactly : Obligations.OpcodeMapSelectsExactly :=
  ⟨rfl, fun _ h w => ⟨opcodeMap_select h w, mnemonic_read h w⟩, fun _ _ _ => opcodeMap_index_unique⟩

/-! ### Ignored fields (R76) -/

theorem selects_row {row : OpcodeRow} (h : row ∈ opcodeMap) : Selects row.mask row.pattern row.read :=
  fun w => (opcodeMap_select h w).1

/-- Settles O3: the rows select every value of the field, and no meaning takes the field. -/
theorem ignoredFieldsChangeNothing : Obligations.IgnoredFieldsChangeNothing :=
  ⟨⟨selects_row (row := opcodeMap[0]) (List.getElem_mem _), fun _ _ _ => rfl⟩,
    ⟨selects_row (row := opcodeMap[1]) (List.getElem_mem _), fun _ _ _ => rfl⟩,
    ⟨selects_row (row := opcodeMap[6]) (List.getElem_mem _), fun _ _ _ _ _ => rfl⟩,
    ⟨selects_row (row := opcodeMap[18]) (List.getElem_mem _), fun _ _ _ _ _ => rfl⟩,
    ⟨selects_row (row := opcodeMap[15]) (List.getElem_mem _), fun _ _ _ _ => rfl⟩,
    ⟨selects_row (row := opcodeMap[17]) (List.getElem_mem _), fun _ _ _ _ => rfl⟩⟩

end Sys2Proof
end

section
/-!
Proofs of the statements about the step of an unknown word and about the step as a whole (30_encoding.md R70, R77), with the
counts of the unknown words.
-/
namespace Sys2Proof.Machine

/-! ### Counting low bytes -/

/-- Counting the low bytes among some codes counts the codes. -/
theorem countP_codes {codes : List Byte} (h : codes.Nodup) :
    ((List.range 256).countP fun b => codes.contains (BitVec.ofNat 8 b)) = codes.length := by
  rw [List.countP_eq_length_filter, ← codes.length_map BitVec.toNat]
  refine List.Perm.length_eq ((List.perm_ext_iff_of_nodup (List.nodup_range.filter _)
    (h.map (fun _ _ => BitVec.eq_of_toNat_eq))).2 fun b => ?_)
  simp only [List.mem_filter, List.mem_range, List.contains_iff_mem, List.mem_map]
  constructor
  · rintro ⟨hb, hc⟩
    exact ⟨_, hc, Nat.mod_eq_of_lt hb⟩
  · rintro ⟨c, hc, rfl⟩
    exact ⟨c.isLt, by rwa [BitVec.ofNat_toNat, BitVec.setWidth_eq]⟩

/-- The low bytes outside some codes are the other ones of 256. -/
theorem countP_not_codes {codes : List Byte} (h : codes.Nodup) :
    ((List.range 256).countP fun b => !codes.contains (BitVec.ofNat 8 b)) = 256 - codes.length := by
  have hsum := (List.range 256).length_eq_countP_add_countP fun b => codes.contains (BitVec.ofNat 8 b)
  simp only [List.length_range, countP_codes h, Bool.not_eq_true, Bool.decide_eq_false] at hsum
  omega

/-- A predicate of period `d` holds `n` times as often below `n * d` as below `d`. -/
theorem countP_range_periodic {p : Nat → Bool} {d : Nat} (hp : Function.Periodic p d) (n : Nat) :
    (List.range (n * d)).countP p = n * (List.range d).countP p := by
  induction n with
  | zero => simp
  | succ n ih =>
    have hshift : p ∘ (n * d + ·) = p := funext fun b => by simpa [Nat.add_comm] using hp.nat_mul n b
    rw [Nat.succ_mul, List.range_add, List.countP_append, List.countP_map, ih, hshift, Nat.succ_mul]

/-- The low nibble of a byte has period 16. -/
theorem countP_nibble_codes (codes : List Nibble) :
    ((List.range 256).countP fun b => codes.contains ((BitVec.ofNat 8 b).extractLsb' 0 4)) =
      16 * (List.range 16).countP fun b => codes.contains ((BitVec.ofNat 8 b).extractLsb' 0 4) := by
  have hp (b : Nat) : (BitVec.ofNat 8 (b + 16)).extractLsb' 0 4 = (BitVec.ofNat 8 b).extractLsb' 0 4 := by
    apply BitVec.eq_of_toNat_eq
    simp only [BitVec.extractLsb'_toNat, BitVec.toNat_ofNat, Nat.shiftRight_zero]
    omega
  exact countP_range_periodic (d := 16) (fun b => by rw [hp]) 16

/-! ### Counting the unknown words (R77) -/

/-- R77's counts: the codes of each family that has a second level, from 256. -/
theorem countP_unknownWord (f x : Nibble) :
    ((List.range 256).countP fun b => unknownWord (wordXNN f x (BitVec.ofNat 8 b))) =
      if f = 0x0 then 254 else if f = 0x8 then 16 * 7 else if f = 0xE then 254 else if f = 0xF then 247 else 0 := by
  split_ifs with h0 h8 hE hF
  · simp only [h0, unknownWord_of_family0, family_wordXNN, fieldNN_wordXNN]
    exact countP_not_codes (by decide)
  · simp only [h8, unknownWord_of_family8, family_wordXNN, fieldN_wordXNN]
    exact (countP_nibble_codes _).trans (by decide)
  · simp only [hE, unknownWord_of_familyE, family_wordXNN, fieldNN_wordXNN]
    exact countP_not_codes (by decide)
  · simp only [hF, unknownWord_of_familyF, family_wordXNN, fieldNN_wordXNN]
    exact countP_not_codes (by decide)
  · have hf : f ∉ [0x0, 0x8, 0xE, 0xF] := by simpa using ⟨h0, h8, hE, hF⟩
    exact List.countP_eq_zero.2 fun b _ => by simp [unknownWord_of_family (family_wordXNN f x (BitVec.ofNat 8 b)) hf]

theorem sum_countP_unknownWord :
    ((List.range 16).map fun f => ((List.range 16).map fun x => (List.range 256).countP fun b =>
      unknownWord (wordXNN (BitVec.ofNat 4 f) (BitVec.ofNat 4 x) (BitVec.ofNat 8 b))).sum).sum = 13872 := by
  simp only [countP_unknownWord, List.map_const', List.sum_replicate, List.length_range]
  rfl

/-- The step of an unknown word changes the fault record, the status and what the tick changes. -/
theorem unchangedBut_unknownOpcodeStep (s : State) :
    UnchangedBut [.delay, .sound, .soundEdge, .status, .fault] s s.unknownOpcodeStep := by
  apply unchangedBut_of_fields
  simp [State.unknownOpcodeStep]

/-- Settles O4: the two answers of dispatch, the counts by family, and the step of an unknown word. -/
theorem unknownWordsFault : Obligations.UnknownWordsFault :=
  ⟨fun w => (dispatch_error_iff w).symm, unknownWord_eq_false_iff, countP_unknownWord, sum_countP_unknownWord,
    fun s hf hu => ⟨s.unknownOpcodeStep, step_unknown hf ((dispatch_error_iff _).2 hu), rfl, rfl, rfl,
      unchangedBut_unknownOpcodeStep s⟩⟩

/-! ### The step (R70, R226) -/

/-- Settles O12: the three outcomes of a step. -/
theorem stepRunsFetchedInstruction : Obligations.StepRunsFetchedInstruction := fun _ =>
  ⟨fun hf _ _ hd he => step_instr hf hd he, fun hf _ hd => step_unknown hf hd, fun _ hf => step_halted hf⟩

end Sys2Proof.Machine
end

section
/-!
Proofs of the statements about control flow (40_control_flow.md): the jumps (R102, R110), the stack controller (R101, R103, R104),
the conditional skips (R106 to R109), and the pc policy of every instruction (R100).
-/
namespace Sys2Proof.Machine

/-! ### The stack controller (R101, R103, R104) -/

/-- A fault changes the record and the status only (R223). -/
theorem unchangedBut_raise (s : State) (k : FaultKind) : UnchangedBut [.status, .fault] s (s.raise k) := by
  apply unchangedBut_of_fields
  simp

theorem exec_call_of_lt (nnn : Addr12) {s : State} (h : s.sp.val < 16) :
    exec (.call nnn) s = .next { s with
      stack := s.stack.set s.sp.val s.pc, sp := ⟨s.sp.val + 1, by omega⟩, pc := zextAddr nnn } := by
  obtain ⟨hfull, _⟩ | ⟨_, he⟩ := execCall_eq nnn s
  · omega
  · exact he

theorem exec_call_of_full (nnn : Addr12) {s : State} (h : s.sp.val = 16) :
    exec (.call nnn) s = .next (s.raise .stackOverflow) := by
  obtain ⟨_, he⟩ | ⟨hlt, _⟩ := execCall_eq nnn s
  · exact he
  · omega

theorem exec_ret_of_succ (n : Nibble) {s : State} {k : Nat} (hk : k < 16) (h : s.sp.val = k + 1) :
    exec (.ret n) s = .next { s with sp := ⟨k, by omega⟩, pc := s.stack[k] + 2 } := by
  obtain ⟨hempty, _⟩ | ⟨_, he⟩ := execRet_eq s
  · omega
  · exact he.trans (by simp [h])

theorem exec_ret_of_empty (n : Nibble) {s : State} (h : s.sp.val = 0) :
    exec (.ret n) s = .next (s.raise .stackUnderflow) := by
  obtain ⟨_, he⟩ | ⟨hpos, _⟩ := execRet_eq s
  · exact he
  · exact absurd h hpos

/-- A call with room leaves its own address in the entry that was free and every other entry as it was. -/
theorem call_stack_getElem (s : State) (h : s.sp.val < 16) (k : Fin 16) :
    (s.stack.set s.sp.val s.pc)[k] = if k.val = s.sp.val then s.pc else s.stack[k] := by
  simp [Vector.getElem_set, eq_comm]

/-- Settles O31: the branch of the call is chosen by the stack pointer. -/
theorem callPushesOrOverflows : Obligations.CallPushesOrOverflows := by
  refine ⟨selects_row (row := opcodeMap[3]) (List.getElem_mem _), fun nnn s h => ?_, fun nnn s h => ?_⟩
  · refine ⟨_, exec_call_of_lt nnn h, toNat_zextAddr nnn, rfl, call_stack_getElem s h, ?_⟩
    apply unchangedBut_of_fields
    simp
  · exact ⟨_, exec_call_of_full nnn h, rfl, rfl, unchangedBut_raise s _⟩

/-- Settles O32: the branch of the return is chosen by the stack pointer. -/
theorem returnPopsOrUnderflows : Obligations.ReturnPopsOrUnderflows := by
  refine ⟨selects_row (row := opcodeMap[1]) (List.getElem_mem _), fun n s k h => ?_, fun n s h => ?_⟩
  · refine ⟨_, exec_ret_of_succ n k.isLt h, BitVec.toNat_add .., rfl, rfl, ?_⟩
    apply unchangedBut_of_fields
    simp
  · exact ⟨_, exec_ret_of_empty n h, rfl, rfl, unchangedBut_raise s _⟩

/-- Settles O33: the entry that the call pushed, its own address, is the one that the return pops. -/
theorem returnResumesAfterCall : Obligations.ReturnResumesAfterCall := by
  intro nnn n s t t' u h hcall hsp hentry hret
  cases (exec_call_of_lt nnn h).symm.trans hcall
  have hpop : t'.sp.val = s.sp.val + 1 := congrArg Fin.val hsp
  have hpushed : t'.stack[s.sp.val] = s.pc := hentry.trans (Vector.getElem_set_self h)
  cases (exec_ret_of_succ n h hpop).symm.trans hret
  exact ⟨congrArg (· + 2) hpushed, rfl⟩

/-! ### Jumps (R102, R110) -/

/-- Settles O29: the target is NNN, and a jump writes pc only. -/
theorem jumpSetsPc : Obligations.JumpSetsPc :=
  ⟨selects_row (row := opcodeMap[2]) (List.getElem_mem _), fun nnn s =>
    ⟨s.jumpTo (zextAddr nnn), rfl, toNat_zextAddr nnn, exec_frame (i := .jump nnn) rfl⟩⟩

/-- A 12-bit address and a byte add up inside the 16 bits of pc. -/
theorem toNat_zextAddr_add_zextByte (nnn : Addr12) (b : Byte) :
    (zextAddr nnn + zextByte b).toNat = nnn.toNat + b.toNat := by
  have hnnn := nnn.isLt
  have hb := b.isLt
  rw [BitVec.toNat_add, toNat_zextAddr, toNat_zextByte]
  omega

/-- Settles O30: the sum does not leave 16 bits, and jump-offset writes pc only. -/
theorem jumpOffsetAddsV0 : Obligations.JumpOffsetAddsV0 :=
  ⟨selects_row (row := opcodeMap[20]) (List.getElem_mem _), fun nnn s =>
    ⟨s.jumpTo (zextAddr nnn + zextByte (s.getV v0)), rfl, toNat_zextAddr_add_zextByte nnn _,
      exec_frame (i := .jumpOffset nnn) rfl⟩⟩

/-! ### Conditional skips (R106 to R109) -/

/-- What a skip on a condition does: 4 or 2 more on pc, and nothing else. -/
theorem skipIf_spec (s : State) {c : Bool} {p : Prop} [Decidable p] (h : c = true ↔ p) :
    (s.skipIf c).pc.toNat = (s.pc.toNat + if p then 4 else 2) % 2 ^ 16 ∧ UnchangedBut [.pc] s (s.skipIf c) := by
  constructor
  · simp only [skipIf_pc, h]
    split <;> rw [BitVec.toNat_add] <;> rfl
  · apply unchangedBut_of_fields
    simp

/-- Settles O34: each skip by its comparison with NN. -/
theorem skipsOnImmediate : Obligations.SkipsOnImmediate :=
  ⟨selects_row (row := opcodeMap[4]) (List.getElem_mem _), selects_row (row := opcodeMap[5]) (List.getElem_mem _),
    fun _ _ s => ⟨_, rfl, skipIf_spec s beq_iff_eq⟩, fun _ _ s => ⟨_, rfl, skipIf_spec s bne_iff_ne⟩⟩

/-- Settles O35: each skip by its comparison with Vy; no meaning takes the low nibble. -/
theorem skipsOnRegister : Obligations.SkipsOnRegister :=
  ⟨selects_row (row := opcodeMap[6]) (List.getElem_mem _), selects_row (row := opcodeMap[18]) (List.getElem_mem _),
    fun _ _ _ s => ⟨_, rfl, skipIf_spec s beq_iff_eq⟩, fun _ _ _ s => ⟨_, rfl, skipIf_spec s bne_iff_ne⟩⟩

/-! ### The pc policies (R100) -/

/-- The six skips: pc policy "conditional" (R106 to R109, R200, R201). -/
def conditionalSkips : List String :=
  ["skip-eq-imm", "skip-neq-imm", "skip-eq-reg", "skip-neq-reg", "skip-key-pressed", "skip-key-not-pressed"]

/-- The instructions with another pc policy than "+2". -/
def notAlwaysAdvancing : List String :=
  ["return", "jump", "call", "jump-offset"] ++ conditionalSkips ++ ["wait-key"]

/-- The policy "+2". -/
theorem exec_pc_of_advancing {i : Instr} {s t : State} (h : exec i s = .next t) (hi : i.mnemonic ∉ notAlwaysAdvancing) :
    t.pc = s.pc + 2 := by
  cases i with
  | ret | jump | call | jumpOffset | skipEqImm | skipNeqImm | skipEqReg | skipNeqReg | skipKeyPressed | skipKeyNotPressed
  | waitKey => simp [Instr.mnemonic, notAlwaysAdvancing, conditionalSkips] at hi
  | regDump => cases h; rw [advance_pc, dumpRegs_eq]
  | regLoad => cases h; rw [advance_pc, loadRegs_eq]
  | _ => cases h; rfl

/-- The policy "conditional". -/
theorem exec_pc_of_skip {i : Instr} {s t : State} (h : exec i s = .next t) (hi : i.mnemonic ∈ conditionalSkips) :
    t.pc = s.pc + 4 ∨ t.pc = s.pc + 2 := by
  cases i with
  | skipEqImm | skipNeqImm | skipEqReg | skipNeqReg | skipKeyPressed | skipKeyNotPressed => cases h; exact ite_eq_or_eq ..
  | _ => simp [Instr.mnemonic, conditionalSkips] at hi

theorem eq_waitKey_of_mnemonic {i : Instr} (h : i.mnemonic = "wait-key") : ∃ x, i = .waitKey x := by
  cases i with
  | waitKey x => exact ⟨x, rfl⟩
  | _ => simp [Instr.mnemonic] at h

theorem firstKey_eq_none_iff_keypad {s : State} : s.firstKey = none ↔ s.keypad = 0 := by
  rw [firstKey_eq_none]
  constructor
  · exact fun h => BitVec.eq_of_getLsbD_eq fun k hk => (h k hk).trans BitVec.getLsbD_zero.symm
  · intro h k _
    rw [h]
    exact BitVec.getLsbD_zero

/-- wait-key advances when a key is down and else waits at its own address (R205). -/
theorem exec_waitKey_pc {x : Nibble} {s t : State} (h : exec (.waitKey x) s = .next t) :
    t.pc = if s.keypad = 0 then s.pc else s.pc + 2 := by
  obtain ⟨k, hk, he⟩ | ⟨hk, he⟩ := execWaitKey_eq x s <;> cases he.symm.trans h
  · exact (if_neg (mt firstKey_eq_none_iff_keypad.2 (by simp [hk]))).symm
  · exact (if_pos (firstKey_eq_none_iff_keypad.1 hk)).symm

/-- A fault of an instruction leaves pc at it: only call and return raise one, and where they do they set no pc (R223). -/
theorem exec_pc_of_fault {i : Instr} {s t : State} (h : exec i s = .next t) (hf : t.fault ≠ s.fault) : t.pc = s.pc := by
  cases i with
  | ret =>
    obtain ⟨_, he⟩ | ⟨_, he⟩ := execRet_eq s <;> cases he.symm.trans h
    · exact raise_pc s _
    · exact absurd rfl hf
  | call nnn =>
    obtain ⟨_, he⟩ | ⟨_, he⟩ := execCall_eq nnn s <;> cases he.symm.trans h
    · exact raise_pc s _
    · exact absurd rfl hf
  | _ => exact absurd (exec_frame h .fault (by simp [Instr.writes])) hf

/-- Settles O27: each policy by its lemma. -/
theorem pcPolicies : Obligations.PcPolicies := by
  intro i s t h
  refine ⟨exec_pc_of_advancing h, exec_pc_of_skip h, fun hi => ?_, exec_pc_of_fault h⟩
  obtain ⟨x, rfl⟩ := eq_waitKey_of_mnemonic hi
  exact exec_waitKey_pc h

end Sys2Proof.Machine
end

section
/-!
Proofs of the statements about the ALU (41_alu.md): the two shapes of its instructions, those that leave VF alone (R132) and those
that write a flag to it last (R131), their results as numbers, and the random draw (R150).
-/
namespace Sys2Proof.Machine

/-! ### The two shapes (R131, R132) -/

/-- R132: an instruction that writes one result to Vx and goes on. -/
theorem exec_of_result {i : Instr} {s : State} {x : Nibble} {b : Byte} (h : exec i s = s.result x b) :
    ∃ t, exec i s = .next t ∧ t.pc = s.pc + 2 ∧ t.getV x = b ∧ (∀ r, r ≠ x → t.getV r = s.getV r) ∧
      UnchangedBut [.regs, .pc] s t := by
  refine ⟨_, h, rfl, getV_setV_same .., fun _ => getV_setV_ne, ?_⟩
  apply unchangedBut_of_fields
  simp

theorem toNat_flagByte (f : Bool) : (flagByte f).toNat = f.toNat := by
  cases f <;> rfl

/-- R131: an instruction that writes a result to Vx, then a flag to VF, and goes on. With X = 0xF the flag is what stays. -/
theorem exec_of_resultAndFlag {i : Instr} {s : State} {x : Nibble} {b : Byte} {f : Bool}
    (h : exec i s = s.resultAndFlag x b f) :
    ∃ t, exec i s = .next t ∧ t.pc = s.pc + 2 ∧ (x ≠ vf → t.getV x = b) ∧ (t.getV vf).toNat = f.toNat ∧
      (∀ r, r ≠ x → r ≠ vf → t.getV r = s.getV r) ∧ UnchangedBut [.regs, .pc] s t := by
  refine ⟨_, h, rfl, fun hx => by simp [hx], by simp [toNat_flagByte], fun r hx hf => by simp [hx, hf], ?_⟩
  apply unchangedBut_of_fields
  simp [State.setVThenFlag]

/-! ### Results and flags as numbers (R130, R139 to R143) -/

theorem toNat_addMod (a b : Byte) : (addMod a b).toNat = (a.toNat + b.toNat) % 256 :=
  BitVec.toNat_ofNat ..

theorem toNat_subMod (a b : Byte) : ((subMod a b).toNat : Int) = (a.toNat - b.toNat : Int) % 256 := by
  rw [subMod, BitVec.toNat_ofInt]
  exact Int.toNat_of_nonneg (Int.emod_nonneg _ (by decide))

theorem toNat_shiftRight_one (a : Byte) : (a >>> 1).toNat = a.toNat / 2 :=
  (BitVec.toNat_ushiftRight ..).trans (Nat.shiftRight_eq_div_pow ..)

theorem toNat_shiftLeft_one (a : Byte) : (a <<< 1).toNat = a.toNat * 2 % 256 := by
  rw [BitVec.toNat_shiftLeft, Nat.shiftLeft_eq]

theorem toNat_carryOut (a b : Byte) : (carryOut a b).toNat = if a.toNat + b.toNat > 255 then 1 else 0 := by
  rw [carryOut, Bool.toNat, Bool.cond_decide]

/-- R139's other form of the carry, without a sum above 255. -/
theorem toNat_carryOut_eq_of_sub (a b : Byte) : (carryOut a b).toNat = if b.toNat > 255 - a.toNat then 1 else 0 := by
  have ha := a.isLt
  have hiff : a.toNat + b.toNat > 255 ↔ b.toNat > 255 - a.toNat := by omega
  simp only [toNat_carryOut, hiff]

theorem toNat_noBorrow (a b : Byte) : (noBorrow a b).toNat = if b.toNat > a.toNat then 0 else 1 := by
  rw [noBorrow, Bool.toNat, Bool.cond_not, Bool.cond_decide]

theorem toNat_lowBitOut (a : Byte) : (lowBitOut a).toNat = a.toNat % 2 := by
  rw [lowBitOut, BitVec.getLsbD, Nat.toNat_testBit, Nat.pow_zero, Nat.div_one]

theorem toNat_highBitOut (a : Byte) : (highBitOut a).toNat = a.toNat / 128 := by
  have ha := a.isLt
  rw [highBitOut, BitVec.getLsbD, Nat.toNat_testBit]
  omega

/-! ### The flag writers (R139 to R143) -/

/-- Settles O38: the sum, and the carry in R139's two forms. -/
theorem addRegSumAndCarry : Obligations.AddRegSumAndCarry := by
  refine ⟨selects_row (row := opcodeMap[13]) (List.getElem_mem _), fun x y s => ?_⟩
  obtain ⟨t, ht, hpc, hx, hf, hframe⟩ := exec_of_resultAndFlag (i := .addReg x y) (s := s) rfl
  refine ⟨t, ht, hpc, fun h => ?_, hf.trans (toNat_carryOut ..), hf.trans (toNat_carryOut_eq_of_sub ..), hframe⟩
  rw [hx h, toNat_addMod]

/-- A subtraction `a − b` into Vx: the difference mod 256 over the integers, and VF 0 iff it borrows (R140, R142). -/
theorem exec_of_subtraction {i : Instr} {s : State} {x : Nibble} {a b : Byte}
    (h : exec i s = s.resultAndFlag x (subMod a b) (noBorrow a b)) :
    ∃ t, exec i s = .next t ∧ t.pc = s.pc + 2 ∧
      (x ≠ vf → ((t.getV x).toNat : Int) = (a.toNat - b.toNat : Int) % 256) ∧
      (t.getV vf).toNat = (if b.toNat > a.toNat then 0 else 1) ∧
      (∀ r, r ≠ x → r ≠ vf → t.getV r = s.getV r) ∧ UnchangedBut [.regs, .pc] s t := by
  obtain ⟨t, ht, hpc, hx, hf, hframe⟩ := exec_of_resultAndFlag h
  refine ⟨t, ht, hpc, fun hne => ?_, hf.trans (toNat_noBorrow ..), hframe⟩
  rw [hx hne, toNat_subMod]

/-- Settles O39: sub-reg is the subtraction Vx − Vy. -/
theorem subRegDifferenceAndNoBorrow : Obligations.SubRegDifferenceAndNoBorrow :=
  ⟨selects_row (row := opcodeMap[14]) (List.getElem_mem _), fun _ _ _ => exec_of_subtraction rfl⟩

/-- Settles O40: subn is the subtraction Vy − Vx. -/
theorem subnDifferenceAndNoBorrow : Obligations.SubnDifferenceAndNoBorrow :=
  ⟨selects_row (row := opcodeMap[16]) (List.getElem_mem _), fun _ _ _ => exec_of_subtraction rfl⟩

/-- Settles O41: each shift as a division or a multiplication by 2, and the bit it shifts out. -/
theorem shiftsAndBitOut : Obligations.ShiftsAndBitOut := by
  refine ⟨selects_row (row := opcodeMap[15]) (List.getElem_mem _), selects_row (row := opcodeMap[17]) (List.getElem_mem _),
    fun x n s => ?_, fun x n s => ?_⟩
  · obtain ⟨t, ht, hpc, hx, hf, hframe⟩ := exec_of_resultAndFlag (i := .shiftRight x n) (s := s) rfl
    exact ⟨t, ht, hpc, fun h => by rw [hx h, toNat_shiftRight_one], hf.trans (toNat_lowBitOut _), hframe⟩
  · obtain ⟨t, ht, hpc, hx, hf, hframe⟩ := exec_of_resultAndFlag (i := .shiftLeft x n) (s := s) rfl
    exact ⟨t, ht, hpc, fun h => by rw [hx h, toNat_shiftLeft_one], hf.trans (toNat_highBitOut _), hframe⟩

/-! ### The instructions that leave VF alone (R133 to R138) -/

/-- Settles O36: one result each; add-imm's as a sum mod 256. -/
theorem movesAndAddImmediate : Obligations.MovesAndAddImmediate := by
  refine ⟨selects_row (row := opcodeMap[7]) (List.getElem_mem _), selects_row (row := opcodeMap[8]) (List.getElem_mem _),
    selects_row (row := opcodeMap[9]) (List.getElem_mem _), fun x nn s => exec_of_result rfl, fun x nn s => ?_,
    fun x y s => exec_of_result rfl⟩
  obtain ⟨t, ht, hpc, hx, hframe⟩ := exec_of_result (i := .addImm x nn) (s := s) rfl
  exact ⟨t, ht, hpc, by rw [hx, toNat_addMod], hframe⟩

/-- A result known bit by bit is what Vx ends with, bit by bit. -/
theorem exec_of_result_bits {i : Instr} {s : State} {x : Nibble} {b : Byte} {bit : Nat → Bool}
    (h : exec i s = s.result x b) (hb : ∀ k, b.getLsbD k = bit k) :
    ∃ t, exec i s = .next t ∧ t.pc = s.pc + 2 ∧ (∀ k, (t.getV x).getLsbD k = bit k) ∧
      (∀ r, r ≠ x → t.getV r = s.getV r) ∧ UnchangedBut [.regs, .pc] s t := by
  obtain ⟨t, ht, hpc, hx, hframe⟩ := exec_of_result h
  exact ⟨t, ht, hpc, fun k => hx ▸ hb k, hframe⟩

/-- Settles O37: each result by its bits. -/
theorem logicIsBitwise : Obligations.LogicIsBitwise :=
  ⟨selects_row (row := opcodeMap[10]) (List.getElem_mem _), selects_row (row := opcodeMap[11]) (List.getElem_mem _),
    selects_row (row := opcodeMap[12]) (List.getElem_mem _),
    fun _ _ _ => exec_of_result_bits rfl fun _ => BitVec.getLsbD_or,
    fun _ _ _ => exec_of_result_bits rfl fun _ => BitVec.getLsbD_and,
    fun _ _ _ => exec_of_result_bits rfl fun _ => BitVec.getLsbD_xor⟩

/-! ### The random draw (R150) -/

/-- A draw takes the first byte that the host put on rand_in. -/
theorem draw_of_randIn_cons {s : State} {b : Byte} {rest : List Byte} (h : s.randIn = b :: rest) :
    s.nextDraw = b ∧ s.afterDraw.randIn = rest := by
  simp [State.nextDraw, h]

theorem afterDraw_randIn_of_nil {s : State} (h : s.randIn = []) : s.afterDraw.randIn = [] := by
  simp [h]

/-- The port rand_in changes the random source only. -/
theorem unchangedBut_supplyRand (s : State) (bytes : List Byte) : UnchangedBut [.rand] s (s.supplyRand bytes) := by
  apply unchangedBut_of_fields
  simp [State.supplyRand]

/-- Settles O42: the draw is the model's next one, and rand writes Vx after it. -/
theorem randMasksADraw : Obligations.RandMasksADraw :=
  ⟨selects_row (row := opcodeMap[21]) (List.getElem_mem _),
    fun x nn s => ⟨s.nextDraw, (s.afterDraw.setV x (s.nextDraw &&& nn)).advance, rfl, rfl, getV_setV_same .., rfl,
      fun _ _ => draw_of_randIn_cons, afterDraw_randIn_of_nil, fun _ => exec_getV (i := .rand x nn) rfl,
      exec_frame (i := .rand x nn) rfl⟩,
    fun s bytes => ⟨s.supplyRand bytes, rfl, rfl, rfl, unchangedBut_supplyRand s bytes⟩⟩

end Sys2Proof.Machine
end

section
/-!
Proofs of the statements about the index register and memory transfer (42_index_memory.md): set-index, add-index and font-addr
(R160 to R162), the digits of store-bcd (R163, R164), and the register transfers reg-dump and reg-load (R165 to R167).
-/
namespace Sys2Proof.Machine

/-! ### The digits of store-bcd (R163, R164) -/

theorem toNat_bcdUnits (v : Byte) : (bcdUnits v).toNat = v.toNat % 10 :=
  Nat.mod_eq_of_lt (by omega)

/-- What store-bcd leaves at I, I + 1 and I + 2, as numbers: three addresses that differ mod 4096. -/
theorem exec_storeBcd_digits {x : Nibble} {s t : State} (h : Memory.wf s.mem = true) (ht : exec (.storeBcd x) s = .next t) :
    (t.readByte s.I.toNat).toNat = (s.getV x).toNat / 100 ∧
    (t.readByte (s.I.toNat + 1)).toNat = (s.getV x).toNat / 10 % 10 ∧
    (t.readByte (s.I.toNat + 2)).toNat = (s.getV x).toNat % 10 := by
  have hread := exec_storeBcd_readByte h ht
  refine ⟨?_, ?_, ?_⟩
  · rw [hread, if_neg (by omega), if_neg (by omega), if_pos rfl, toNat_bcdHundreds]
  · rw [hread, if_neg (by omega), if_pos rfl, toNat_bcdTens]
  · rw [hread, if_pos rfl, toNat_bcdUnits]

/-- Settles O44: the three digits, and every other address reads as before. -/
theorem storeBcdWritesDigits : Obligations.StoreBcdWritesDigits := by
  refine ⟨selects_row (row := opcodeMap[31]) (List.getElem_mem _), fun x s h => ?_⟩
  have ht : exec (.storeBcd x) s = .next _ := rfl
  obtain ⟨hhundreds, htens, hunits⟩ := exec_storeBcd_digits h ht
  refine ⟨_, ht, exec_storeBcd_pc ht, hhundreds, htens, hunits, fun a h₀ h₁ h₂ => ?_, exec_frame ht⟩
  rw [exec_storeBcd_readByte h ht, if_neg h₂, if_neg h₁]
  exact if_neg h₀

/-- Settles O45: the decimal digits of a number below 256. -/
theorem bcdDigitsDenoteValue : Obligations.BcdDigitsDenoteValue := by
  intro x s t h ht
  obtain ⟨hhundreds, htens, hunits⟩ := exec_storeBcd_digits h ht
  have hv : (s.getV x).toNat < 256 := (s.getV x).isLt
  rw [hhundreds, htens, hunits]
  omega

/-! ### The register transfers (R165 to R167) -/

/-- R165: reg-dump leaves register i at I + i, for i up to X. -/
theorem exec_regDump_stored {x : Nibble} {s t : State} (h : Memory.wf s.mem = true) (ht : exec (.regDump x) s = .next t)
    {i : Nibble} (hi : i.toNat ≤ x.toNat) : t.readByte (s.I.toNat + i.toNat) = s.getV i := by
  have hx : x.toNat < 16 := x.isLt
  have hoffset : (s.I.toNat + i.toNat + 4096 * 16 - s.I.toNat) % 4096 = i.toNat := by omega
  cases ht
  rw [advance_readByte, readByte_dumpRegs h hx, hoffset, if_pos (Nat.lt_succ_of_le hi), BitVec.ofNat_toNat,
    BitVec.setWidth_eq]

/-- R165: an address that is none of I to I + X mod 4096 reads as before reg-dump. -/
theorem exec_regDump_outside {x : Nibble} {s t : State} (h : Memory.wf s.mem = true) (ht : exec (.regDump x) s = .next t)
    {a : Nat} (ha : ∀ i : Nibble, i.toNat ≤ x.toNat → a % 4096 ≠ (s.I.toNat + i.toNat) % 4096) :
    t.readByte a = s.readByte a := by
  have hx : x.toNat < 16 := x.isLt
  have hI : s.I.toNat < 65536 := s.I.isLt
  have hoffset : ¬(a + 4096 * 16 - s.I.toNat) % 4096 < x.toNat + 1 := by
    intro hlt
    refine ha (.ofNat 4 ((a + 4096 * 16 - s.I.toNat) % 4096)) ?_ ?_ <;>
      rw [BitVec.toNat_ofNat] <;> omega
  cases ht
  rw [advance_readByte, readByte_dumpRegs h hx, if_neg hoffset]

/-- R166: reg-load takes register i from I + i for i up to X, and leaves the others. -/
theorem exec_regLoad_getV {x : Nibble} {s t : State} (ht : exec (.regLoad x) s = .next t) (i : Nibble) :
    t.getV i = if i.toNat ≤ x.toNat then s.readByte (s.I.toNat + i.toNat) else s.getV i := by
  have hx : x.toNat < 16 := x.isLt
  cases ht
  rw [advance_getV, getV_loadRegs s hx]
  simp only [Nat.lt_succ_iff]

/-- Settles O46: the registers stored, and every address outside them. -/
theorem regDumpStoresRegisters : Obligations.RegDumpStoresRegisters := by
  refine ⟨selects_row (row := opcodeMap[32]) (List.getElem_mem _), fun x s h => ?_⟩
  have ht : exec (.regDump x) s = .next _ := rfl
  exact ⟨_, ht, exec_pc_of_advancing ht (show "reg-dump" ∉ notAlwaysAdvancing by decide), fun i => exec_regDump_stored h ht,
    fun a => exec_regDump_outside h ht, exec_frame ht⟩

/-- Settles O47: the registers up to X from memory, those above X unchanged. -/
theorem regLoadLoadsRegisters : Obligations.RegLoadLoadsRegisters := by
  refine ⟨selects_row (row := opcodeMap[33]) (List.getElem_mem _), fun x s => ?_⟩
  have ht : exec (.regLoad x) s = .next _ := rfl
  refine ⟨_, ht, exec_pc_of_advancing ht (show "reg-load" ∉ notAlwaysAdvancing by decide), fun i hi => ?_,
    fun i hi => ?_, exec_frame ht⟩
  · rw [exec_regLoad_getV ht, if_pos hi, readByte_mod]
  · rw [exec_regLoad_getV ht, if_neg (Nat.not_le_of_lt hi)]

/-- Settles O48: I is the same through both transfers, so each register is loaded from the byte it was stored in. -/
theorem dumpThenLoadRestores : Obligations.DumpThenLoadRestores := by
  intro x s t t' u h hdump hI hbytes hload
  have htI : t.I = s.I := exec_frame hdump .index (by simp [Instr.writes])
  have huI : u.I = t'.I := exec_frame hload .index (by simp [Instr.writes])
  refine ⟨fun i hi => ?_, huI.trans (hI.trans htI)⟩
  rw [exec_regLoad_getV hload, if_pos hi, hI, hbytes i hi, htI, exec_regDump_stored h hdump hi]

/-! ### The index register (R160 to R162) -/

/-- R162: five times a byte, at most 1275, fits in I. -/
theorem toNat_glyphAddr (v : Byte) : (BitVec.ofNat 16 (5 * v.toNat)).toNat = 5 * v.toNat :=
  Nat.mod_eq_of_lt (by have := v.isLt; omega)

/-- R161: the sum with a byte mod 2^16. -/
theorem toNat_add_zextByte (w : Word) (b : Byte) : (w + zextByte b).toNat = (w.toNat + b.toNat) % 2 ^ 16 := by
  rw [BitVec.toNat_add, toNat_zextByte]

/-- Settles O43: each value as a number, written to I. -/
theorem indexRegisterWrites : Obligations.IndexRegisterWrites :=
  ⟨selects_row (row := opcodeMap[19]) (List.getElem_mem _), selects_row (row := opcodeMap[29]) (List.getElem_mem _),
    selects_row (row := opcodeMap[30]) (List.getElem_mem _),
    fun nnn _ => ⟨_, rfl, rfl, toNat_zextAddr nnn, exec_frame (i := .setIndex nnn) rfl⟩,
    fun x s => ⟨_, rfl, rfl, toNat_add_zextByte s.I _, exec_frame (i := .addIndex x) rfl⟩,
    fun x _ => ⟨_, rfl, rfl, toNat_glyphAddr _, exec_frame (i := .fontAddr x) rfl⟩⟩

end Sys2Proof.Machine
end

section
/-!
Proofs of the statements about the display (43_display.md): clear-screen (R180), what draw-sprite leaves in a pixel and in VF
(R181, R182), and a sprite drawn twice (R184).
-/
namespace Sys2Proof.Machine

/-- Settles O49: every pixel of the cleared framebuffer reads 0. -/
theorem clearScreenClears : Obligations.ClearScreenClears :=
  ⟨selects_row (row := opcodeMap[0]) (List.getElem_mem _),
    fun n _ => ⟨_, rfl, rfl, fbPixel_clear, rfl, exec_frame (i := .clearScreen n) rfl⟩⟩

/-! ### What draw-sprite does (R181, R182) -/

theorem State.SpriteHits.lt {s : State} {x0 y0 : Byte} {n k : Nat} (h : s.SpriteHits x0 y0 n k) : k < 2048 :=
  spriteTargets_lt (mem_spriteTargets.2 h)

/-- The pixels a sprite hits depend on I and on the sprite's bytes only. -/
theorem spriteHits_congr {s t : State} {n : Nat} (hI : t.I = s.I)
    (hbytes : ∀ r < n, t.readByte (s.I.toNat + r) = s.readByte (s.I.toNat + r)) (x0 y0 : Byte) (k : Nat) :
    t.SpriteHits x0 y0 n k ↔ s.SpriteHits x0 y0 n k := by
  refine exists_congr fun r => and_congr_right fun hr => ?_
  simp only [State.spriteBit, hI, hbytes r hr]

theorem flagByte_eq_one {f : Bool} : flagByte f = 1 ↔ f = true := by
  cases f <;> decide

section
variable {x y n : Nibble} {s t : State} (ht : exec (.drawSprite x y n) s = .next t)
include ht

/-- R182: a pixel that a set sprite bit hits is toggled. -/
theorem exec_drawSprite_pixel_hit {k : Nat} (h : s.SpriteHits (s.getV x) (s.getV y) n.toNat k) :
    t.pixel k = !s.pixel k := by
  cases ht
  refine (blit_pixel s _ _ n.isLt.le h.lt).trans ?_
  rw [decide_eq_true (mem_spriteTargets.2 h), Bool.xor_true]

/-- R182: a pixel that no set sprite bit hits stays. -/
theorem exec_drawSprite_pixel_miss {k : Nat} (hk : k < 2048) (h : ¬s.SpriteHits (s.getV x) (s.getV y) n.toNat k) :
    t.pixel k = s.pixel k := by
  cases ht
  refine (blit_pixel s _ _ n.isLt.le hk).trans ?_
  rw [decide_eq_false (mt mem_spriteTargets.1 h), Bool.xor_false]

/-- R182: VF is 1 exactly on a collision. -/
theorem exec_drawSprite_vf_eq_one :
    t.getV vf = 1 ↔ ∃ k, s.SpriteHits (s.getV x) (s.getV y) n.toNat k ∧ s.pixel k = true := by
  cases ht
  rw [advance_getV, getV_setV_same, flagByte_eq_one, blit_collide _ _ _ n.isLt.le]

theorem exec_drawSprite_vf_eq_zero_or_one : t.getV vf = 0 ∨ t.getV vf = 1 := by
  obtain ⟨f, hf⟩ := exec_flag ht (by simp [Instr.mnemonic, flagWriters])
  exact hf ▸ flagByte_eq_zero_or_one f

end

/-- Settles O50: the pixels and VF by the lemmas above, the other registers and elements by the frames of `exec`. -/
theorem drawSpriteTogglesHits : Obligations.DrawSpriteTogglesHits := by
  refine ⟨selects_row (row := opcodeMap[22]) (List.getElem_mem _), fun x y n s => ?_⟩
  have ht : exec (.drawSprite x y n) s = .next _ := rfl
  exact ⟨_, ht, rfl, rfl, fun k _ => exec_drawSprite_pixel_hit ht, fun k => exec_drawSprite_pixel_miss ht,
    (exec_drawSprite_vf_eq_one ht).2,
    fun hno => (exec_drawSprite_vf_eq_zero_or_one ht).resolve_right (mt (exec_drawSprite_vf_eq_one ht).1 hno),
    fun r => exec_getV ht, exec_frame ht⟩

/-! ### A sprite drawn twice (R184) -/

/-- Settles O51: both draws hit the same pixels, and the first leaves them inverted for the second. -/
theorem drawTwiceRestores : Obligations.DrawTwiceRestores := by
  intro x y n s t t' u hxf hyf ht hfb hI' hx' hy' hbytes hu
  have hI : t.I = s.I := exec_frame ht .index (by simp [Instr.writes])
  have hmem : ∀ a, t.readByte a = s.readByte a := exec_frame ht .mem (by simp [Instr.writes])
  have hx : t'.getV x = s.getV x := hx'.trans (exec_getV ht hxf)
  have hy : t'.getV y = s.getV y := hy'.trans (exec_getV ht hyf)
  have hpixel (k : Nat) : t'.pixel k = t.pixel k := by rw [State.pixel, hfb, State.pixel]
  have hhits (k : Nat) :
      t'.SpriteHits (t'.getV x) (t'.getV y) n.toNat k ↔ s.SpriteHits (s.getV x) (s.getV y) n.toNat k := by
    rw [hx, hy]
    refine spriteHits_congr (hI'.trans hI) (fun r hr => ?_) _ _ k
    rw [← hmem, ← hI, hbytes r hr]
  refine ⟨fb_ext fun k hk => ?_, (exec_drawSprite_vf_eq_one hu).trans (exists_congr fun k => ?_),
    exec_drawSprite_vf_eq_zero_or_one hu⟩
  · change u.pixel k = s.pixel k
    by_cases h : s.SpriteHits (s.getV x) (s.getV y) n.toNat k
    · rw [exec_drawSprite_pixel_hit hu ((hhits k).2 h), hpixel, exec_drawSprite_pixel_hit ht h, Bool.not_not]
    · rw [exec_drawSprite_pixel_miss hu hk (mt (hhits k).1 h), hpixel, exec_drawSprite_pixel_miss ht hk h]
  · rw [hhits]
    refine and_congr_right fun h => ?_
    rw [hpixel, exec_drawSprite_pixel_hit ht h, Bool.not_eq_true']

end Sys2Proof.Machine
end

section
/-!
Proofs of the statements about the keypad and the timers (44_keypad_timers.md): the key skips (R200 to R202), wait-key and the
wait (R205, R206), and the transfers of a timer with the tick that follows them (R203, R207, R208).
-/
namespace Sys2Proof.Machine

/-! ### The key skips (R200 to R202) -/

theorem keyDown_iff (s : State) (v : Byte) :
    s.keyDown v = true ↔ v.toNat ≤ 15 ∧ s.keypad.getLsbD v.toNat = true := by
  rw [keyDown_eq, Bool.and_eq_true, decide_eq_true_iff, Nat.lt_succ_iff]

/-- Settles O52: each skip by `key_down`; skip-key-not-pressed skips on its negation. -/
theorem keySkipsTestKeyDown : Obligations.KeySkipsTestKeyDown := by
  refine ⟨selects_row (row := opcodeMap[23]) (List.getElem_mem _), selects_row (row := opcodeMap[24]) (List.getElem_mem _),
    fun x s => ⟨_, rfl, skipIf_spec s (keyDown_iff s _)⟩, fun x s => ?_⟩
  have hup : (!s.keyDown (s.getV x)) = true ↔ ¬((s.getV x).toNat ≤ 15 ∧ s.keypad.getLsbD (s.getV x).toNat = true) := by
    rw [Bool.not_eq_true', Bool.eq_false_iff, Ne, keyDown_iff]
  obtain ⟨hpc, hframe⟩ := skipIf_spec s hup
  exact ⟨_, rfl, by rw [hpc, ite_not], hframe⟩

/-! ### The tick (R230) -/

/-- One countdown is a subtraction that stops at 0. -/
theorem toNat_countDown (b : Byte) : (countDown b).toNat = b.toNat - 1 := by
  unfold countDown
  split
  · next h => rw [h]; rfl
  · next h => bv_omega

/-! ### wait-key and the wait (R205, R206) -/

theorem exec_waitKey_of_some {s : State} {k : Nat} (h : s.firstKey = some k) (x : Nibble) :
    exec (.waitKey x) s = s.result x (BitVec.ofNat 8 k) := by
  rw [exec, execWaitKey, h]; rfl

theorem exec_waitKey_of_none {s : State} (h : s.firstKey = none) (x : Nibble) : exec (.waitKey x) s = .next s.wait := by
  rw [exec, execWaitKey, h]

theorem exec_waitKey_status {x : Nibble} {s t : State} (h : exec (.waitKey x) s = .next t) :
    t.status = if s.keypad = 0 then .waitKey else s.status := by
  by_cases hk : s.keypad = 0
  · cases (exec_waitKey_of_none (firstKey_eq_none_iff_keypad.2 hk) x).symm.trans h
    exact (if_pos hk).symm
  · obtain ⟨k, hsome⟩ := Option.ne_none_iff_exists'.1 (mt firstKey_eq_none_iff_keypad.1 hk)
    cases (exec_waitKey_of_some hsome x).symm.trans h
    exact (if_neg hk).symm

/-- A wait changes the status only. -/
theorem unchangedBut_wait (s : State) : UnchangedBut [.status] s s.wait := by
  apply unchangedBut_of_fields
  simp

/-- Settles O53: the scan finds the lowest key or none, and the step ticks the timers that wait-key left alone. -/
theorem waitKeyTakesLowestKey : Obligations.WaitKeyTakesLowestKey := by
  refine ⟨selects_row (row := opcodeMap[26]) (List.getElem_mem _), fun x s k hk hdown hlow => ?_, fun x s hnone => ?_,
    fun x s hf hd => ?_⟩
  · obtain ⟨t, ht, hpc, hx, hframe⟩ := exec_of_result (exec_waitKey_of_some (firstKey_eq_some.2 ⟨hk, hdown, hlow⟩) x)
    exact ⟨t, ht, hpc, by rw [hx, BitVec.toNat_ofNat]; omega, hframe⟩
  · exact ⟨_, exec_waitKey_of_none (firstKey_eq_none.2 hnone) x, rfl, unchangedBut_wait s⟩
  · obtain ⟨u, hu⟩ := exec_next (.waitKey x) s.beginStep
    have hdt : u.dt = s.dt := exec_frame hu .delay (by simp [Instr.writes])
    have hst : u.st = s.st := exec_frame hu .sound (by simp [Instr.writes])
    exact ⟨_, step_instr hf hd hu, exec_waitKey_status hu, by rw [tick_dt, toNat_countDown, hdt],
      by rw [tick_st, toNat_countDown, hst]⟩

/-- A step at a wait-key with no key down is the wait and the tick. -/
theorem step_waiting {x : Nibble} {s : State} (hf : s.fault = none) (hd : dispatch s.fetchWord = .ok (.waitKey x))
    (hk : s.keypad = 0) : step s = .next s.beginStep.wait.tick :=
  step_instr hf hd (exec_waitKey_of_none (firstKey_eq_none_iff_keypad (s := s.beginStep).2 hk) x)

theorem unchangedBut_waitingStep (s : State) :
    UnchangedBut [.delay, .sound, .soundEdge, .status] s s.beginStep.wait.tick := by
  apply unchangedBut_of_fields
  simp

theorem Element.Same.trans {e : Element} {s t u : State} (hst : e.Same s t) (htu : e.Same t u) : e.Same s u := by
  cases e with
  | mem | regs => exact fun a => (htu a).trans (hst a)
  | stack | rand => exact ⟨htu.1.trans hst.1, htu.2.trans hst.2⟩
  | _ => exact Eq.trans htu hst

theorem UnchangedBut.trans {es : List Element} {s t u : State} (hst : UnchangedBut es s t) (htu : UnchangedBut es t u) :
    UnchangedBut es s u :=
  fun e he => (hst e he).trans (htu e he)

/-- Settles O54: a waiting step leaves the fault, the fetched word and the keypad, so the next step waits too. -/
theorem waitLastsUntilAKey : Obligations.WaitLastsUntilAKey := by
  intro n x s hf hd hk
  induction n generalizing s with
  | zero =>
    exact ⟨_, core_run_succ (step_waiting hf hd hk) 0, rfl, toNat_countDown _, toNat_countDown _, unchangedBut_waitingStep s⟩
  | succ n ih =>
    obtain ⟨t, hrun, hstatus, hdt, hst, hframe⟩ := ih s.beginStep.wait.tick hf hd hk
    have hcount (b : Byte) : (countDown b).toNat - (n + 1) = b.toNat - (n + 1 + 1) := by rw [toNat_countDown]; omega
    exact ⟨t, (core_run_succ (step_waiting hf hd hk) _).trans hrun, hstatus, hdt.trans (hcount _), hst.trans (hcount _),
      (unchangedBut_waitingStep s).trans hframe⟩

/-! ### Timer transfers (R203, R207, R208) -/

/-- Settles O55: each transfer with its frame, then the tick of the step from the value it left. -/
theorem timerTransfers : Obligations.TimerTransfers := by
  refine ⟨selects_row (row := opcodeMap[25]) (List.getElem_mem _), selects_row (row := opcodeMap[27]) (List.getElem_mem _),
    selects_row (row := opcodeMap[28]) (List.getElem_mem _), fun x s => exec_of_result rfl,
    fun x s => ⟨_, rfl, rfl, rfl, exec_frame (i := .setDelay x) rfl⟩,
    fun x s => ⟨_, rfl, rfl, rfl, exec_frame (i := .setSound x) rfl⟩,
    fun x s hf => ⟨fun hd => ?_, fun hd => ?_, fun hd => ?_⟩⟩
  · exact ⟨_, step_instr hf hd rfl, getV_setV_same .., toNat_countDown _⟩
  · exact ⟨_, step_instr hf hd rfl, toNat_countDown _⟩
  · exact ⟨_, step_instr hf hd rfl, toNat_countDown _, beq_iff_eq⟩

end Sys2Proof.Machine
end

section
/-!
Proofs of the statements about the outcome of a step (60_exceptions.md): its causes of a fault (R222 to R224), its status (R221),
its tick (R230, R231) and the halted step (R225); then the invariant that every step keeps.
-/
namespace Sys2Proof.Machine

/-! ### The outcome of a step that is not halted (R221, R222) -/

/-- R222: what makes a step raise a fault of a kind. -/
def State.Raises (s : State) : FaultKind → Prop
  | .unknownOpcode => unknownWord s.fetchWord = true
  | .stackOverflow => (∃ nnn, dispatch s.fetchWord = .ok (.call nnn)) ∧ s.sp.val = 16
  | .stackUnderflow => (∃ n, dispatch s.fetchWord = .ok (.ret n)) ∧ s.sp.val = 0

/-- R205: the step finds a wait-key with no key down. -/
def State.Waits (s : State) : Prop := (∃ x, dispatch s.fetchWord = .ok (.waitKey x)) ∧ s.keypad = 0

/-- A cause of a fault makes the step raise it, then tick. -/
theorem step_of_raises {s : State} (hf : s.fault = none) {k : FaultKind} (hk : s.Raises k) :
    step s = .next (s.raise k).tick := by
  cases k with
  | unknownOpcode => exact step_unknown hf ((dispatch_error_iff _).2 hk)
  | stackOverflow =>
    obtain ⟨⟨nnn, hd⟩, hsp⟩ := hk
    exact step_instr hf hd (exec_call_of_full nnn hsp)
  | stackUnderflow =>
    obtain ⟨⟨n, hd⟩, hsp⟩ := hk
    exact step_instr hf hd (exec_ret_of_empty n hsp)

/-- Before the tick a fault has been raised for its cause, or the fault is as it was and the status says whether the step waits:
only call and return raise a fault, and only wait-key writes another status. -/
theorem beforeTick_outcome {s u : State} (h : BeforeTick s u) :
    (∃ k, s.Raises k ∧ u = s.raise k) ∨
      (u.fault = s.fault ∧ (s.Waits ∧ u.status = .waitKey ∨ u.status = .run)) := by
  obtain ⟨i, hd, he⟩ | ⟨hd, rfl⟩ := h
  · cases i with
    | call nnn =>
      obtain ⟨hsp, heq⟩ | ⟨_, heq⟩ := execCall_eq nnn s.beginStep <;> cases heq.symm.trans he
      · exact .inl ⟨.stackOverflow, ⟨⟨nnn, hd⟩, hsp⟩, rfl⟩
      · exact .inr ⟨rfl, .inr rfl⟩
    | ret n =>
      obtain ⟨hsp, heq⟩ | ⟨_, heq⟩ := execRet_eq s.beginStep <;> cases heq.symm.trans he
      · exact .inl ⟨.stackUnderflow, ⟨⟨n, hd⟩, hsp⟩, rfl⟩
      · exact .inr ⟨rfl, .inr rfl⟩
    | waitKey x =>
      refine .inr ⟨exec_frame he .fault (by simp [Instr.writes]), ?_⟩
      have hstatus := exec_waitKey_status he
      by_cases hk : s.keypad = 0
      · exact .inl ⟨⟨⟨x, hd⟩, hk⟩, hstatus.trans (if_pos hk)⟩
      · exact .inr (hstatus.trans (if_neg hk))
    | _ => exact .inr ⟨exec_frame he .fault (by simp [Instr.writes]), .inr (exec_frame he .status (by simp [Instr.writes]))⟩
  · exact .inl ⟨.unknownOpcode, (dispatch_error_iff _).1 hd, rfl⟩

/-- A step that is not halted raises a fault for its cause and ticks, or leaves the block running or waiting. -/
theorem step_outcome {s t : State} (hf : s.fault = none) (h : step s = .next t) :
    (∃ k, s.Raises k ∧ t = (s.raise k).tick) ∨
      (t.fault = none ∧ (s.Waits ∧ t.status = .waitKey ∨ t.status = .run)) := by
  obtain ⟨u, hu⟩ := exists_beforeTick s
  cases (step_of_beforeTick hf hu).symm.trans h
  obtain ⟨k, hk, rfl⟩ | ⟨hfault, hstatus⟩ := beforeTick_outcome hu
  · exact .inl ⟨k, hk, rfl⟩
  · exact .inr ⟨hfault.trans hf, hstatus⟩

/-- A step clears no fault. -/
theorem fault_eq_none_of_step {s t : State} (h : step s = .next t) (ht : t.fault = none) : s.fault = none := by
  obtain ⟨f, hf, rfl⟩ | ⟨hf, _⟩ := step_cases h
  · exact absurd (hf.symm.trans ht) (Option.some_ne_none f)
  · exact hf

/-- Settles O17: the outcomes of the step; a record names its own cause, and a cause writes its record. -/
theorem faultCausesAreExact : Obligations.FaultCausesAreExact := by
  intro s t hf h k
  have hiff : t.fault = some ⟨k, s.pc, s.fetchWord⟩ ↔ s.Raises k := by
    constructor
    · intro ht
      obtain ⟨k', hk', rfl⟩ | ⟨hnone, _⟩ := step_outcome hf h
      · cases ht
        exact hk'
      · exact absurd (hnone.symm.trans ht) (Option.some_ne_none _).symm
    · intro hk
      cases (step_of_raises hf hk).symm.trans h
      rfl
  cases k <;> exact hiff

/-! ### The tick (R230, R231) -/

/-- The tick changes the timers and soundEdge only. -/
theorem unchangedBut_tick (s : State) : UnchangedBut [.delay, .sound, .soundEdge] s s.tick := by
  apply unchangedBut_of_fields
  simp

theorem tick_soundEdge_iff (s : State) : s.tick.soundEdge = true ↔ s.st = 1 := beq_iff_eq

/-- A faulting step changes the record, the status and what the tick changes. -/
theorem unchangedBut_faultingStep (s : State) (k : FaultKind) :
    UnchangedBut [.delay, .sound, .soundEdge, .status, .fault] s (s.raise k).tick := by
  apply unchangedBut_of_fields
  simp

/-- Settles O18: a step that ends with a record has raised it, then ticked the timers that the fault left alone. -/
theorem faultsArePrecise : Obligations.FaultsArePrecise := by
  refine ⟨fun s t hf h f ht => ?_, fun _ => rfl⟩
  obtain ⟨k, _, rfl⟩ | ⟨hnone, _⟩ := step_outcome hf h
  · cases ht
    exact ⟨rfl, rfl, rfl, toNat_countDown _, toNat_countDown _, tick_soundEdge_iff _, unchangedBut_faultingStep s k⟩
  · exact absurd (hnone.symm.trans ht) (Option.some_ne_none f).symm

/-- Settles O15: the tick compares ST with 1, from whichever state is named as the one before it; a halted step writes 0. -/
theorem soundEdgeIsOneToZero : Obligations.SoundEdgeIsOneToZero := by
  refine ⟨fun s t h => ⟨fun hedge => ?_, ?_⟩, fun _ => rfl⟩
  · obtain ⟨_, _, rfl⟩ | ⟨hf, u, hu, rfl⟩ := step_cases h
    · cases hedge
    · exact ⟨hf, u, hu, (tick_soundEdge_iff u).1 hedge⟩
  · rintro ⟨hf, u, hu, hst⟩
    cases (step_of_beforeTick hf hu).symm.trans h
    exact (tick_soundEdge_iff u).2 hst

/-! ### The status (R221) -/

/-- A step ends with the halt code of its fault. -/
theorem step_status_of_fault {s t : State} (h : step s = .next t) {f : FaultRecord} (ht : t.fault = some f) :
    t.status = f.kind.haltStatus := by
  obtain ⟨f', hf', rfl⟩ | ⟨hf, _⟩ := step_cases h
  · cases hf'.symm.trans ht
    rfl
  · obtain ⟨k, _, rfl⟩ | ⟨hnone, _⟩ := step_outcome hf h
    · cases ht
      rfl
    · exact absurd (hnone.symm.trans ht) (Option.some_ne_none f).symm

/-- A step that ends without a fault ends waiting or running. -/
theorem step_status_of_no_fault {s t : State} (h : step s = .next t) (ht : t.fault = none) :
    s.Waits ∧ t.status = .waitKey ∨ t.status = .run := by
  obtain ⟨k, _, rfl⟩ | ⟨_, hstatus⟩ := step_outcome (fault_eq_none_of_step h ht) h
  · cases ht
  · exact hstatus

/-- The reply of the step port is the status the step ends with. -/
theorem transact_step {s t : State} (h : step s = .next t) : transact .step s = .next (.status t.status, t) := by
  rw [transact, h]; rfl

/-- Settles O16: the status by the outcome of the step; a waiting step is `step_waiting`. -/
theorem statusReportsOutcome : Obligations.StatusReportsOutcome := by
  refine ⟨fun s t h => ⟨fun _ => step_status_of_fault h, fun ht hwait hk => ?_, fun ht hwaits => ?_⟩,
    ⟨rfl, rfl, rfl, rfl, rfl⟩, fun _ _ => transact_step, fun _ => rfl⟩
  · obtain ⟨x, hd⟩ := hwait
    cases (step_waiting (fault_eq_none_of_step h ht) hd hk).symm.trans h
    exact ⟨rfl, rfl⟩
  · exact (step_status_of_no_fault h ht).resolve_left fun hw => hwaits hw.1

/-! ### The invariant of a step -/

theorem statusAgrees_of_fault {s : State} {f : FaultRecord} (hf : s.fault = some f) (hs : s.status = f.kind.haltStatus) :
    s.statusAgrees = true := by
  simp [State.statusAgrees, hf, hs]

theorem statusAgrees_of_no_fault {s : State} (hf : s.fault = none) (hs : s.status = .waitKey ∨ s.status = .run) :
    s.statusAgrees = true := by
  rcases hs with hs | hs <;> simp [State.statusAgrees, hf, hs]

/-- Every step leaves a status that agrees with the fault, whatever stood there before. -/
theorem step_statusAgrees {s t : State} (h : step s = .next t) : t.statusAgrees = true := by
  cases ht : t.fault with
  | none => exact statusAgrees_of_no_fault ht ((step_status_of_no_fault h ht).imp_left And.right)
  | some f => exact statusAgrees_of_fault ht (step_status_of_fault h ht)

/-- After a sound edge ST stands at 0: the tick that finds ST at 1 counts it down. -/
theorem step_st_of_soundEdge {s t : State} (h : step s = .next t) (hedge : t.soundEdge = true) : t.st = 0 := by
  obtain ⟨_, _, rfl⟩ | ⟨_, u, _, rfl⟩ := step_cases h
  · cases hedge
  · rw [tick_st, (tick_soundEdge_iff u).1 hedge]; rfl

/-- Settles O23: memory by `step_wf`; the status and the edge are written by the step itself. -/
theorem stepKeepsInvariant : Obligations.StepKeepsInvariant := fun _ _ hs h =>
  ⟨step_wf h hs.mem_wf, step_statusAgrees h, step_st_of_soundEdge h⟩

end Sys2Proof.Machine
end

section
/-!
Proofs of the statements about the host interface (60_exceptions.md R240 to R246): what each port writes, the halted block
(R225), and the invariant over every transaction.
-/
namespace Sys2Proof.Machine

/-! ### What a transaction leaves unchanged -/

/-- The elements a transaction may write (R240, R241, R243 to R246): `reset` keeps the host's random source, and a step the key
vector. -/
def PortOp.writes : PortOp → List Element
  | .reset => [.mem, .regs, .index, .pc, .stack, .delay, .sound, .fb, .redraw, .keypad, .soundEdge, .status, .fault]
  | .step => [.mem, .regs, .index, .pc, .stack, .delay, .sound, .fb, .redraw, .soundEdge, .status, .fault, .rand]
  | .load _ => [.mem]
  | .keyIn _ => [.keypad]
  | .redrawConsume => [.redraw]
  | .randIn _ => [.rand]
  | .fbOut | .soundEdge | .statusOut | .faultOut => []

/-- A step leaves the key vector to the host (R30, R244). -/
theorem step_keypad {s t : State} (h : step s = .next t) : t.keypad = s.keypad := by
  obtain ⟨_, _, rfl⟩ | ⟨_, u, ⟨i, _, he⟩ | ⟨_, rfl⟩, rfl⟩ := step_cases h
  · rfl
  · exact exec_same he .keypad List.not_mem_nil
  · rfl

/-- A transaction of the step port is a step. -/
theorem step_of_transact {s s' : State} {reply : PortReply} (h : transact .step s = .next (reply, s')) :
    step s = .next s' := by
  cases hs : step s with
  | next t => cases (transact_step hs).symm.trans h; rfl
  | fault | refused => rw [transact, hs] at h; cases h

/-- The state after a load of an image that fits (R243). -/
def State.loaded (s : State) (bytes : List Byte) : State := { s with mem := Memory.putBytes s.mem 0x200 bytes }

theorem transact_load_of_le (s : State) {bytes : List Byte} (h : bytes.length ≤ 3584) :
    transact (.load bytes) s = .next (.done, s.loaded bytes) := by
  rw [transact, State.load, if_neg (Nat.not_lt.2 h)]; rfl

theorem transact_load_of_gt (s : State) {bytes : List Byte} (h : bytes.length > 3584) :
    transact (.load bytes) s = .next (.loadError .imageTooLong, s) := by
  rw [transact, State.load, if_pos h]; rfl

/-- A load leaves the image in memory, or the state as it was. -/
theorem transact_load_cases {s s' : State} {bytes : List Byte} {reply : PortReply}
    (h : transact (.load bytes) s = .next (reply, s')) :
    bytes.length ≤ 3584 ∧ s' = s.loaded bytes ∨ s' = s := by
  obtain hgt | hle := Nat.lt_or_ge 3584 bytes.length
  · cases (transact_load_of_gt s hgt).symm.trans h
    exact .inr rfl
  · cases (transact_load_of_le s hle).symm.trans h
    exact .inl ⟨hle, rfl⟩

/-- The frame of every port: it changes the elements of `PortOp.writes` only. -/
theorem transact_frame {op : PortOp} {s s' : State} {reply : PortReply} (h : transact op s = .next (reply, s')) :
    UnchangedBut op.writes s s' := by
  apply unchangedBut_of_fields
  cases op with
  | step => simp [PortOp.writes, step_keypad (step_of_transact h)]
  | load bytes => obtain ⟨_, rfl⟩ | rfl := transact_load_cases h <;> simp [PortOp.writes, State.loaded]
  | reset => cases h; simp [PortOp.writes, State.portReset]
  | keyIn keys => cases h; simp [PortOp.writes, State.keyIn]
  | redrawConsume => cases h; simp [PortOp.writes, State.redrawConsume]
  | randIn bytes => cases h; simp [PortOp.writes, State.supplyRand]
  | fbOut | soundEdge | statusOut | faultOut => cases h; simp

/-- Only reset and step write a timer or the fault. -/
theorem PortOp.not_mem_writes {op : PortOp} (hreset : op ≠ .reset) (hstep : op ≠ .step) {e : Element}
    (he : e ∈ [.delay, .sound, .fault]) : e ∉ op.writes := by
  cases op with
  | reset => exact absurd rfl hreset
  | step => exact absurd rfl hstep
  | _ => revert e; simp [PortOp.writes]

/-- Settles O14: the step's tick, and the frame of every other port. -/
theorem stepEndsWithTick : Obligations.StepEndsWithTick := by
  refine ⟨fun s t hf h => ?_, fun op s s' reply hreset hstep h => ?_⟩
  · obtain ⟨u, hu⟩ := exists_beforeTick s
    cases (step_of_beforeTick hf hu).symm.trans h
    exact ⟨u, hu, toNat_countDown _, toNat_countDown _, tick_soundEdge_iff u, unchangedBut_tick u⟩
  · exact ⟨transact_frame h .delay (PortOp.not_mem_writes hreset hstep (by simp)),
      transact_frame h .sound (PortOp.not_mem_writes hreset hstep (by simp))⟩

/-! ### The halted block (R225) -/

/-- Any number of halted steps leaves what the first one left. -/
theorem run_halted (n : Nat) {s : State} {f : FaultRecord} (hf : s.fault = some f) :
    core.run (n + 1) s = .next { s with soundEdge := false, status := f.kind.haltStatus } := by
  rw [core_run_succ (step_halted hf)]
  induction n with
  | zero => rfl
  | succ n ih => rw [core_run_succ (step_halted (s := { s with soundEdge := false, status := _ }) hf), ih]

/-- Settles O19: the run by `run_halted`; a halted step keeps the fault, and of the other ports only reset writes it. -/
theorem haltedBlockIsFrozen : Obligations.HaltedBlockIsFrozen := by
  refine ⟨fun n _ _ => run_halted n, fun op s s' reply hf hreset h => ?_⟩
  by_cases hstep : op = .step
  · subst hstep
    obtain ⟨f, hf⟩ := Option.ne_none_iff_exists'.1 hf
    cases (step_halted hf).symm.trans (step_of_transact h)
    rfl
  · exact transact_frame h .fault (PortOp.not_mem_writes hreset hstep (by simp))

/-! ### The invariant over the transactions -/

theorem portReset_inv (s : State) : s.portReset.Inv := ⟨rfl, rfl, nofun⟩

/-- An image that fits lies inside memory, so a load keeps memory canonical. -/
theorem loaded_inv {s : State} (hs : s.Inv) {bytes : List Byte} (h : bytes.length ≤ 3584) : (s.loaded bytes).Inv :=
  ⟨Memory.wf_putBytes hs.mem_wf (Nat.add_le_add_left h 0x200), hs.status_agrees, hs.edge_at_zero⟩

/-- Settles O59: step and load by their lemmas; the ports other than reset touch none of the invariant's elements. -/
theorem transactionsKeepInvariant : Obligations.TransactionsKeepInvariant := by
  intro op s s' reply hs h
  cases op with
  | reset => cases h; exact portReset_inv s
  | step => exact stepKeepsInvariant s s' hs (step_of_transact h)
  | load bytes =>
    obtain ⟨hle, rfl⟩ | rfl := transact_load_cases h
    · exact loaded_inv hs hle
    · exact hs
  | keyIn | redrawConsume | randIn => cases h; exact ⟨hs.mem_wf, hs.status_agrees, hs.edge_at_zero⟩
  | fbOut | soundEdge | statusOut | faultOut => cases h; exact hs

/-- Settles O24: the invariant holds at reset and every transaction keeps it. -/
theorem reachableStatesAreInvariant : Obligations.ReachableStatesAreInvariant := by
  intro s hs
  induction hs with
  | reset => exact portReset_inv State.reset
  | transact _ h ih => exact transactionsKeepInvariant _ _ _ _ ih h

/-! ### The ports (R243 to R246) -/

/-- What memory reads as after a load: the image where it was copied to, what was there before elsewhere. -/
theorem readByte_loaded {s : State} (hs : Memory.wf s.mem = true) {bytes : List Byte} (h : bytes.length ≤ 3584) {a : Nat}
    (ha : a < 4096) : (s.loaded bytes).readByte a =
      if 0x200 ≤ a ∧ a < 0x200 + bytes.length then bytes.getD (a - 0x200) 0 else s.readByte a := by
  have hmod : a % Config.memSize = a := Nat.mod_eq_of_lt ha
  rw [State.readByte, State.readByte, hmod]
  exact Memory.read_putBytes hs (Nat.add_le_add_left h 0x200) a

/-- Settles O56: the image's length decides, and a read after the load is `readByte_loaded`. -/
theorem loadWritesTheImage : Obligations.LoadWritesTheImage := by
  refine fun s bytes hs => ⟨transact_load_of_gt s, fun h => ⟨_, transact_load_of_le s h, fun j hj => ?_, fun a ha hout => ?_,
    transact_frame (transact_load_of_le s h)⟩⟩
  · rw [readByte_loaded hs h (by omega), if_pos (by omega), Nat.add_sub_cancel_left, List.getD_eq_getElem _ _ hj]
  · rw [readByte_loaded hs h ha, if_neg (by omega)]

/-- Settles O57: the port stores the vector it is given, and a step leaves it. -/
theorem keypadIsTheHosts : Obligations.KeypadIsTheHosts :=
  ⟨fun s keys => ⟨s.keyIn keys, rfl, fun _ _ => rfl, transact_frame (op := .keyIn keys) rfl⟩, fun _ _ => step_keypad⟩

/-- Element `y * 64 + x` of the pixel view is the pixel in row `y` and column `x` (R28, R245). -/
theorem fbOut_getElem? (s : State) {x y : Nat} (hx : x < 64) (hy : y < 32) :
    s.fbOut[y * 64 + x]? = some ((s.fb.toList.getD y 0).getLsbD x) := by
  have hk : y * 64 + x < 2048 := by omega
  have hrow : (y * 64 + x) / 64 = y := by omega
  have hcol : (y * 64 + x) % 64 = x := by omega
  have hpixel : s.pixel (y * 64 + x) = (s.fb.toList.getD y 0).getLsbD x := by
    rw [State.pixel, fbPixel_of_lt _ hk]
    simp [hrow, hcol, hy]
  simp [State.fbOut, Config.fbSize, hk, hpixel]

/-- Settles O58: the pixel view element by element; the flag is cleared by the port and set by both display instructions. -/
theorem displayPorts : Obligations.DisplayPorts := by
  refine ⟨fun s => ⟨s.fbOut, rfl, ?_, fun x hx y hy => fbOut_getElem? s hx hy⟩,
    fun s => ⟨_, rfl, rfl, transact_frame (op := .redrawConsume) rfl⟩, fun n s t h => ?_, fun x y n s t h => ?_⟩
  · exact (List.length_map _).trans List.length_range
  · cases h; rfl
  · cases h; rfl

end Sys2Proof.Machine
end

section
/-!
Proofs of the statements about reset and the step as a whole (70_reset_and_hazards.md): every step answers a next state (R272), the
state after reset (R260) and its invariant, and the first step of a block that was reset and not loaded (R261).
-/
namespace Sys2Proof.Machine

/-- Settles O13: a halted block answers its halted step, any other block the tick of the state before it. -/
theorem everyStepAnswersNext : Obligations.EveryStepAnswersNext := by
  intro s
  cases hf : s.fault with
  | some f => exact ⟨_, step_halted hf⟩
  | none =>
    obtain ⟨_, hu⟩ := exists_beforeTick s
    exact ⟨_, step_of_beforeTick hf hu⟩

/-! ### What reset leaves (R260) -/

/-- After reset memory holds FONT below 0x050 and 0 elsewhere, whatever it held before. -/
theorem readByte_portReset (s : State) {a : Nat} (ha : a < 4096) :
    s.portReset.readByte a = if a < 80 then fontByte a else 0 := by
  have hmod : a % Config.memSize = a := Nat.mod_eq_of_lt ha
  rw [State.readByte, hmod]
  exact Memory.read_nil a

theorem getV_portReset (s : State) (r : Nibble) : s.portReset.getV r = 0 := Vector.getElem_replicate r.isLt

/-- The reset port gives the reset state but for the host's random source, which is no state of the block (R33). -/
theorem unchangedBut_portReset (s : State) : UnchangedBut [.rand] State.reset s.portReset := by
  apply unchangedBut_of_fields
  simp [State.portReset]

/-- Settles O20: memory, registers, stack and pixels through their reads; every other element is its reset value. -/
theorem resetState : Obligations.ResetState := by
  refine fun s => ⟨s.portReset, rfl, fun a ha => ?_, fun a hle hlt => ?_, getV_portReset s, rfl, rfl,
    fun k => Vector.getElem_replicate k.isLt, rfl, rfl, rfl, fbPixel_clear, rfl, fun _ => BitVec.getLsbD_zero, rfl, rfl, rfl,
    unchangedBut_portReset s, rfl, rfl⟩
  · rw [readByte_portReset s (by omega), if_pos ha]
  · rw [readByte_portReset s hlt, if_neg (Nat.not_lt.2 hle)]

/-- Settles O22: the reset state lists no memory, runs without a fault, and has no sound edge. -/
theorem invariantAtReset : Obligations.InvariantAtReset := portReset_inv State.reset

/-! ### Reset without a load (R261) -/

/-- Nothing is loaded above the font, so the program area reads 0. -/
theorem readByte_portReset_program (s : State) {a : Nat} (hle : 0x200 ≤ a) (hlt : a < 0x1000) :
    s.portReset.readByte a = 0 := by
  rw [readByte_portReset s hlt, if_neg (by omega)]

/-- The first fetch after reset reads the two zero bytes at 0x200. -/
theorem fetchWord_portReset (s : State) : s.portReset.fetchWord = 0x0000 := by
  calc s.portReset.fetchWord
    _ = wordOfBytes (s.portReset.readByte 0x200) (s.portReset.readByte 0x201) := rfl
    _ = wordOfBytes 0 0 := by
      rw [readByte_portReset_program s (by decide) (by decide), readByte_portReset_program s (by decide) (by decide)]
    _ = 0x0000 := rfl

/-- Settles O21: the fetched word 0x0000 is one of the unknown words, and its step raises the fault with that word. -/
theorem resetAloneHalts : Obligations.ResetAloneHalts := by
  refine ⟨fun _ _ => rfl, fun s => ⟨fun _ => readByte_portReset_program s, (s.portReset.raise .unknownOpcode).tick, ?_, ?_, rfl⟩⟩
  · have hraises : s.portReset.Raises .unknownOpcode := by
      rw [State.Raises, fetchWord_portReset]
      decide
    exact step_of_raises rfl hraises
  · calc (s.portReset.raise .unknownOpcode).tick.fault
      _ = some ⟨.unknownOpcode, 0x200, s.portReset.fetchWord⟩ := rfl
      _ = some ⟨.unknownOpcode, 0x200, 0x0000⟩ := by rw [fetchWord_portReset]

end Sys2Proof.Machine
end
